-- ==== Sys2Proof/Word.lean ====
section
/-! DEFINITION. The two widths that cross the block's ports (00_scope R10, R11): the 8-bit datum and the 16-bit
command word. Every value of the block is an unsigned bit vector. -/

namespace Sys2Proof

/-- `DATA_WIDTH`: every datum moved in or out is one byte (R10). -/
abbrev Byte := BitVec 8

/-- `CMD_WIDTH`: one command word (R10, R60). -/
abbrev Word := BitVec 16

end Sys2Proof
end

