-- ==== Sys2Proof/Syntax.lean ====
section
/-! DEFINITION. The eleven commands (30_encoding R63), one constructor per row of the opcode table. -/

namespace Sys2Proof

/-- A command. The operand of the three commands that take one is the byte `IMM8` as it stands (R61). -/
inductive Instr where
  /-- `CRC.INIT` (R83) -/
  | crcInit
  /-- `CRC.BYTE b` (R84) -/
  | crcByte (b : Byte)
  /-- `CRC.READ` (R85) -/
  | crcRead
  /-- `B32.INIT` (R105) -/
  | b32Init
  /-- `B32.BYTE b` (R106) -/
  | b32Byte (b : Byte)
  /-- `B32.FINAL` (R107) -/
  | b32Final
  /-- `B32.CRC` (R108) -/
  | b32Crc
  /-- `KEY.CLR` (R121) -/
  | keyClr
  /-- `KEY.PUSH b` (R122) -/
  | keyPush (b : Byte)
  /-- `SK.ENC` (R124) -/
  | skEnc
  /-- `STAT.READ` (R140) -/
  | statRead
  deriving DecidableEq, Repr

end Sys2Proof
end

