-- ==== Sys2Proof/WellFormed.lean ====
section
/-! DEFINITION. Which command words are legal, in the mask-and-match form of 30_encoding R63. It is written from
the opcode map alone and does not use the decoder, so that "the decoder accepts exactly the legal words" is a claim.
A term of `Instr` carries its operand as 8 bits and all 256 values are legal (R61): there is no ill-formed
`Instr`; what can be ill-formed is a WORD, in the two ways of R64. -/

namespace Sys2Proof

/-- One row of the opcode map: a word selects the row exactly when `(w and mask) = pattern` (R63). -/
structure OpcodeRow where
  mnemonic : String
  pattern : Word
  mask : Word
  deriving DecidableEq, Repr

/-- The opcode map of R63. -/
def opcodeMap : List OpcodeRow :=
  [ ⟨"CRC.INIT", 0x1000, 0xFFFF⟩, ⟨"CRC.BYTE", 0x1100, 0xFF00⟩, ⟨"CRC.READ", 0x1200, 0xFFFF⟩,
    ⟨"B32.INIT", 0x2000, 0xFFFF⟩, ⟨"B32.BYTE", 0x2100, 0xFF00⟩, ⟨"B32.FINAL", 0x2200, 0xFFFF⟩,
    ⟨"B32.CRC", 0x2300, 0xFFFF⟩, ⟨"KEY.CLR", 0x3000, 0xFFFF⟩, ⟨"KEY.PUSH", 0x3100, 0xFF00⟩,
    ⟨"SK.ENC", 0x3200, 0xFFFF⟩, ⟨"STAT.READ", 0x4000, 0xFFFF⟩ ]

/-- `w` selects the row (R63). -/
def OpcodeRow.selects (row : OpcodeRow) (w : Word) : Bool := (w &&& row.mask) == row.pattern

/-- First check, R64's first group: the opcode field is the opcode of some row. -/
def opcodeAssigned (w : Word) : Bool := opcodeMap.any fun row => (w &&& 0xFF00) == (row.pattern &&& 0xFF00)

/-- Second check, R64's second group: a bit that the row of `w`'s opcode reserves (a mask bit below bit 8) is
zero. -/
def reservedOperandZero (w : Word) : Bool :=
  opcodeMap.all fun row => (w &&& 0xFF00) != (row.pattern &&& 0xFF00) || (w &&& row.mask &&& 0x00FF) == 0

/-- A word is well formed when both checks pass. -/
def wordWellFormed (w : Word) : Bool := opcodeAssigned w && reservedOperandZero w

/-- A word is legal when it selects a row (R63); every other word is illegal (R64). -/
def legalWord (w : Word) : Bool := opcodeMap.any fun row => row.selects w

end Sys2Proof
end

