-- ==== Sys2Proof/Decode.lean ====
section
/-! DEFINITION. The decoder (30_encoding R69), total on all 65536 words and rejecting by name, and the encoder
(R63, R60). -/

namespace Sys2Proof

/-- Why a word is illegal: the two groups of R64. -/
inductive IllegalWord where
  /-- `OPC` is the opcode of no command. -/
  | unassignedOpcode (opc : Byte)
  /-- The opcode takes no operand and `IMM8` is not zero. -/
  | reservedOperand (opc imm : Byte)
  deriving DecidableEq, Repr

/-- The twelve-way result of R69: one of the eleven commands, or illegal. -/
inductive Decoded where
  | command (i : Instr)
  | illegal (why : IllegalWord)
  deriving DecidableEq, Repr

/-- `OPC = w[15:8]` (R60). -/
def opcField (w : Word) : Byte := w.extractLsb' 8 8

/-- `IMM8 = w[7:0]` (R60). -/
def immField (w : Word) : Byte := w.extractLsb' 0 8

/-- The three opcodes whose `IMM8` is an operand (R61, the first three lines of R69). -/
def operandCommand (opc imm : Byte) : Option Instr :=
  if opc = 0x11 then some (.crcByte imm)
  else if opc = 0x21 then some (.b32Byte imm)
  else if opc = 0x31 then some (.keyPush imm)
  else none

/-- The eight opcodes whose `IMM8` is reserved (the last lines of R69). -/
def plainCommand (opc : Byte) : Option Instr :=
  if opc = 0x10 then some .crcInit
  else if opc = 0x12 then some .crcRead
  else if opc = 0x20 then some .b32Init
  else if opc = 0x22 then some .b32Final
  else if opc = 0x23 then some .b32Crc
  else if opc = 0x30 then some .keyClr
  else if opc = 0x32 then some .skEnc
  else if opc = 0x40 then some .statRead
  else none

/-- `decode(w)` of R69. It reads no state. -/
def decode (w : Word) : Decoded :=
  match operandCommand (opcField w) (immField w) with
  | some i => .command i
  | none =>
    match plainCommand (opcField w) with
    | some i => if immField w = 0 then .command i else .illegal (.reservedOperand (opcField w) (immField w))
    | none => .illegal (.unassignedOpcode (opcField w))

/-- The command a word stands for, if any. -/
def Decoded.command? : Decoded → Option Instr
  | .command i => some i
  | .illegal _ => none

/-- `w = OPC * 256 + IMM8` (R60). -/
def assemble (opc imm : Byte) : Word := opc ++ imm

/-- The word of a command (R63, R69: "`encode` is its inverse on the eleven commands"). -/
def encode : Instr → Word
  | .crcInit => assemble 0x10 0x00
  | .crcByte b => assemble 0x11 b
  | .crcRead => assemble 0x12 0x00
  | .b32Init => assemble 0x20 0x00
  | .b32Byte b => assemble 0x21 b
  | .b32Final => assemble 0x22 0x00
  | .b32Crc => assemble 0x23 0x00
  | .keyClr => assemble 0x30 0x00
  | .keyPush b => assemble 0x31 b
  | .skEnc => assemble 0x32 0x00
  | .statRead => assemble 0x40 0x00

/-- The command word whose bits are the low `nbits` bits of `w`, the rest zero. The command port takes a word as
one number and has no byte order (R41), so laying the word out is the identity. -/
def tableWord (nbits w : Nat) : Word := BitVec.ofNat 16 (w % 2 ^ nbits)

/-- The command the decoder reads from a table word. A word of more than 16 bits is no command: there is one length
(R60). DESIGN CHOICE for `nbits` other than 16, log entry 13. -/
def decodeTableWord (nbits w : Nat) : Option Instr :=
  if nbits ≤ 16 then (decode (tableWord nbits w)).command? else none

end Sys2Proof
end

