-- ==== Sys2Proof/Config.lean ====
section
/-! DEFINITION. What the spec leaves open. Both constants are opaque: nothing can evaluate them, so no claim can
lean on a value of theirs. Every other parameter of the block is a wired constant (10_state R31). -/

namespace Sys2Proof

/-- The value a byte of `KEYBUF` reads as when nothing has written it since reset, by index. The spec calls it
unspecified and unobservable (R25, R33; 93 V5; 92 D9: no proof may lean on it). DESIGN CHOICE, safe: a FREE VALUE,
log entry 1. -/
opaque Config.keybufUnwritten : Nat → Byte

/-- Whether the host front end takes the hex digits `A` to `F` as well: left to the host (R132, 93 V9).
DESIGN CHOICE, safe: a FREE VALUE of the host's software, log entry 9. -/
opaque Config.hostAcceptsUpperHex : Bool

end Sys2Proof
end

