-- ==== Sys2Proof/Machine/State.lean ====
section
/-! DEFINITION. The state as plain data: the record of 10_state R20, and beside it the three fields of a run that
stand for the ports' outside (log entries 2, 4, 5). -/

namespace Sys2Proof.Machine

/-- The key buffer's written bytes by index, the only memory of the block (00_scope R13, 20_memory R44). Canonical
form: `Memory.wf` in Machine/Ops.lean. -/
abbrev Memory := List Host.Cell

/-- What the host does at a port between two commands (20_memory R40; 70 R172). -/
inductive PortEvent where
  /-- One 16-bit word is handed over on the command port `CMD` (R41). -/
  | command (w : Word)
  /-- `RST` is asserted (R170). -/
  | reset
  /-- The host takes one byte from the output port (R42). -/
  | takeByte
  deriving DecidableEq, Repr

/-- The block's two faults (60_exceptions R150). Both are effects that the spec describes (`CAUSE` is written and
the block is halted), so in the model both are next states. -/
inductive FaultCause where
  /-- Code 1: a running block took a word that is no command (R151). -/
  | illegalCommand
  /-- Code 2: a running block took `SK.ENC` with `KLEN` other than 32 (R152). -/
  | invalidLength
  deriving DecidableEq, Repr

/-- The machine. The first seven fields are R20's record, widths included; the last three belong to the run, not to
the block (10_state R27, R31). -/
structure State where
  /-- `CRC`, 16 bits: the remainder of the bytes taken in (R21). -/
  crc : BitVec 16
  /-- `ACC`, 4 bits: the pending bits, right-aligned (R22). -/
  acc : BitVec 4
  /-- `NB`, 3 bits: how many pending bits, 0 to 4 (R23). -/
  nb : BitVec 3
  /-- `KEYBUF[0..31]`: the bytes written since reset (R25). -/
  keybuf : Memory
  /-- `KLEN`, 6 bits: bytes pushed, 33 means more than 32 (R26). -/
  klen : BitVec 6
  /-- `CAUSE`, 2 bits: 0 running, else the fault's code (R28). -/
  cause : BitVec 2
  /-- `OUT`: every byte emitted since reset, oldest first (R30). -/
  out : List Byte
  /-- The host's port events still to come, next one first. DESIGN CHOICE, log entry 2. -/
  host : List PortEvent
  /-- How many bytes of `OUT` the output port has delivered (R42). DESIGN CHOICE, log entry 5. -/
  taken : Nat
  /-- The `OUT` of each run a reset has ended, oldest first (R172). DESIGN CHOICE, log entry 4. -/
  pastRuns : List (List Byte)
  deriving DecidableEq, Repr

/-- Reasons the machine stops with a fault. There is none: both faults of the spec are next states (R150 to R153)
and the step is total (30_encoding R70). Nothing raises it; safe. -/
inductive Fault
  deriving DecidableEq, Repr

/-- Reasons the model refuses. -/
inductive Refusal where
  /-- An arm of the dispatcher whose instruction has no meaning yet. No arm raises it; safe, since it would only stop
  where the block goes on. -/
  | notModelled (mnemonic : String)
  deriving DecidableEq, Repr

/-- What a step or a meaning answers. -/
abbrev Result := Host.Outcome State Fault Refusal

/-- The state after reset (10_state R33, 70 R170). No byte of `KEYBUF` is listed: the spec gives it no reset value
(log entry 1). -/
def State.reset : State where
  crc := 0x0000
  acc := 0
  nb := 0
  keybuf := []
  klen := 0
  cause := 0
  out := []
  host := []
  taken := 0
  pastRuns := []

end Sys2Proof.Machine
end

