-- ==== Sys2Proof/Machine/Flags.lean ====
section
/-! DEFINITION. The block's one flag field `CAUSE` and what is computed from it: the codes (60_exceptions R150), the
`STATUS` view (10_state R29), the `FAULT` output (60_exceptions R156). The block has no carry, zero, overflow or sign
flag (10_state R28). -/

namespace Sys2Proof.Machine

/-- The fault codes of R150. Code 0 is running, code 3 is never produced. -/
def FaultCause.code : FaultCause → BitVec 2
  | .illegalCommand => 1
  | .invalidLength => 2

/-- Halted: `CAUSE != 0` (R154, glossary). -/
def State.halted (s : State) : Bool := s.cause != 0

/-- `STATUS = zext_8(CAUSE)`; bits 7:2 read as zero (R29). -/
def State.statusByte (s : State) : Byte := s.cause.setWidth 8

/-- The `FAULT` output, a level: 1 exactly while `CAUSE != 0` (R156). -/
def State.faultOutput (s : State) : Bool := s.halted

end Sys2Proof.Machine
end

