-- ==== Sys2Proof/Machine/Ops.lean ====
section
/-! DEFINITION. The named operations over the state (00_scope R13): register writes, `MemRead`, `MemWrite`, `emit`,
`raise`, the halted test, reset, and the output port. -/

namespace Sys2Proof.Machine

/-! ### Register writes -/

/-- `CRC <- v`. -/
def State.setCrc (s : State) (v : BitVec 16) : State := { s with crc := v }

/-- `ACC <- a ; NB <- n`. -/
def State.setPending (s : State) (a : BitVec 4) (n : BitVec 3) : State := { s with acc := a, nb := n }

/-- `KLEN <- v`. -/
def State.setKlen (s : State) (v : BitVec 6) : State := { s with klen := v }

/-- `CAUSE <- v`. -/
def State.setCause (s : State) (v : BitVec 2) : State := { s with cause := v }

/-- The port events still to come are `es`. -/
def State.setHost (s : State) (es : List PortEvent) : State := { s with host := es }

/-! ### The key buffer -/

/-- The byte written at index `i` since reset, if any. -/
def Memory.lookup : Memory → Nat → Option Byte
  | [], _ => none
  | (a, b) :: m, i => if a = i then some b else Memory.lookup m i

/-- Writing keeps the indexes strictly rising. -/
def Memory.write : Memory → Nat → Byte → Memory
  | [], i, b => [(i, b)]
  | (a, c) :: m, i, b =>
    if i < a then (i, b) :: (a, c) :: m
    else if i = a then (i, b) :: m
    else (a, c) :: Memory.write m i b

/-- The indexes rise strictly and start at `lo` or above. -/
def Memory.risingFrom : Nat → Memory → Bool
  | _, [] => true
  | lo, (a, _) :: m => decide (lo ≤ a) && Memory.risingFrom (a + 1) m

/-- The canonical form: indexes strictly rising and inside 0 to 31 (20_memory R44, R50). An unlisted index holds no
written byte, so no entry equals what an unlisted index holds. -/
def Memory.wf (m : Memory) : Bool := Memory.risingFrom 0 m && m.all fun cell => decide (cell.1 < 32)

/-- `MemRead(i, 1)` (R13): the byte written at `KEYBUF[i]`; where nothing was written since reset, the free value of
log entry 1, which no run observes (R25). -/
def State.memRead (s : State) (i : Nat) : Byte := (s.keybuf.lookup i).getD (Config.keybufUnwritten i)

/-- `MemWrite(i, 1, v)` (R13). -/
def State.memWrite (s : State) (i : Nat) (v : Byte) : State := { s with keybuf := s.keybuf.write i v }

/-! ### The output stream -/

/-- `emit(v)` for each `v` of `vs` in order: `OUT` only grows at its end (R13; 10_state R30). -/
def State.emitAll (s : State) (vs : List Byte) : State := { s with out := s.out ++ vs }

/-- The bytes the output port has delivered: a front part of `OUT`, oldest first (20_memory R42). -/
def State.delivered (s : State) : List Byte := s.out.take s.taken

/-- The byte the output port offers next, if any (R42). -/
def State.offered (s : State) : Option Byte := s.out[s.taken]?

/-- The host takes the byte offered; where none is offered nothing changes (R42, 10_state R30). -/
def State.takeByte (s : State) : State := { s with taken := if s.taken < s.out.length then s.taken + 1 else s.taken }

/-! ### Faults and reset -/

/-- `raise <Fault>()` (60_exceptions R153): the only state change of the command is `CAUSE <- code`. Nothing is saved
and control goes nowhere. -/
def State.raise (s : State) (c : FaultCause) : State := s.setCause c.code

/-- The test every command begins with (30_encoding R70): a running block takes the command's effect, a halted block
drops it (60_exceptions R154). -/
def ifRunning (s : State) (effect : State) : Result := if s.halted then .next s else .next effect

/-- `RST` (70 R170), the only way out of the halted state (60_exceptions R159): the reset state. The host's later
events are the host's own and stay; the ended run's `OUT` is kept apart (70 R172). -/
def State.resetBlock (s : State) (later : List PortEvent) : State :=
  { State.reset with host := later, pastRuns := s.pastRuns ++ [s.out] }

end Sys2Proof.Machine
end

