-- ==== Sys2Proof/Machine/Port.lean ====
section
/-! DEFINITION. What comes to the block next: the host's next port event (20_memory R40 to R42; 70 R170, R172). The block has no program counter and fetches nothing (10_state
R27): the list of port events is the model's bookkeeping, log entry 2. -/

namespace Sys2Proof.Machine

/-- What the next port event brings. -/
inductive Fetched where
  /-- No command: the port event is over and leaves the state `t`. -/
  | port (t : State)
  /-- A command word, taken in state `t`. -/
  | word (w : Word) (t : State)
  deriving DecidableEq, Repr

/-- Take the host's next event. While the host sends nothing the block waits and nothing changes (R41, R170; log
entry 3). -/
def fetch (s : State) : Fetched :=
  match s.host with
  | [] => .port s
  | .reset :: later => .port (s.resetBlock later)
  | .takeByte :: later => .port (s.setHost later).takeByte
  | .command w :: later => .word w (s.setHost later)

/-- The host hands over this word next. -/
def State.placeWord (s : State) (nbits w : Nat) : State := s.setHost (.command (tableWord nbits w) :: s.host)

end Sys2Proof.Machine
end

