-- ==== Sys2Proof/Machine/Operands.lean ====
section
/-! DEFINITION. Byte order and bit order (20_memory R46, R47, R48). The one operand form of a command, the byte
`IMM8` used as it stands (30_encoding R61), needs no operation: it is the constructor's argument. -/

namespace Sys2Proof.Machine

/-- `v[7:0]`. -/
def lowByte (v : BitVec 16) : Byte := v.extractLsb' 0 8

/-- `v[15:8]`. -/
def highByte (v : BitVec 16) : Byte := v.extractLsb' 8 8

/-- The 16-bit checksum as bytes, LOW BYTE FIRST, at all three places where it becomes bytes (R46; 90_conflicts C1
overrules the source's prose; log entry 7). -/
def checksumBytes (c : BitVec 16) : List Byte := [lowByte c, highByte c]

/-- The bits of a byte in the order both units take them, bit 7 first (R47, R48). -/
def byteBits (b : Byte) : List Bool :=
  [b.getLsbD 7, b.getLsbD 6, b.getLsbD 5, b.getLsbD 4, b.getLsbD 3, b.getLsbD 2, b.getLsbD 1, b.getLsbD 0]

/-- The bits of a message: first byte first (R57), bit 7 of each byte first. -/
def messageBits (m : List Byte) : List Bool := m.flatMap byteBits

end Sys2Proof.Machine
end

