-- ==== Sys2Proof/Machine/Base32Unit.lean ====
section
/-! DEFINITION. The Base32 unit (41_base32): the alphabet, the byte step, the final step, the text of a message, the
padded form, and the meanings of B32.INIT, B32.BYTE, B32.FINAL and B32.CRC. The index table, the bit order and the
zero fill are general knowledge of RFC 4648 that the spec took into its rules (93 G2 to G5): log entry 8. -/

namespace Sys2Proof.Machine

/-- The table `ALPHA` (R101): the codes of `A` to `Z` at 0 to 25, of `2` to `7` at 26 to 31. -/
def alphabet : List Byte :=
  [ 0x41, 0x42, 0x43, 0x44, 0x45, 0x46, 0x47, 0x48, 0x49, 0x4A, 0x4B, 0x4C, 0x4D ] ++
  [ 0x4E, 0x4F, 0x50, 0x51, 0x52, 0x53, 0x54, 0x55, 0x56, 0x57, 0x58, 0x59, 0x5A ] ++
  [ 0x32, 0x33, 0x34, 0x35, 0x36, 0x37 ]

/-- `ALPHA[g]` (R101). -/
def alpha (g : BitVec 5) : Byte := alphabet.getD g.toNat 0

/-- The pad character `=`, never emitted (00_scope R9, R107). -/
def padChar : Byte := 0x3D

/-- What `b32_absorb` returns: the new pending bits, their number, the characters in order. -/
structure Absorbed where
  acc : BitVec 4
  nb : BitVec 3
  chars : List Byte
  deriving DecidableEq, Repr

/-- The loop of R102 on the `k` low bits of `t`: while five bits are there, cut off the five oldest. At most `fuel`
turns; three are enough for every value of the registers. -/
def cutGroups : Nat → BitVec 12 → Nat → List Byte × Nat
  | 0, _, k => ([], k)
  | fuel + 1, t, k =>
    if 5 ≤ k then
      let rest := cutGroups fuel t (k - 5)
      (alpha ((t >>> (k - 5)).setWidth 5) :: rest.1, rest.2)
    else ([], k)

/-- The low `k` bits of `t` (`t and ((1 << k) - 1)`), right-aligned in `ACC` (R102). -/
def youngestBits (t : BitVec 12) (k : Nat) : BitVec 4 := (t &&& (((1 : BitVec 12) <<< k) - 1)).setWidth 4

/-- `b32_absorb(a, n, b)` (R102). For `n` of 5 to 7, which never occur, the pseudocode is followed as it stands: log
entry 6. -/
def b32Absorb (a : BitVec 4) (n : BitVec 3) (b : Byte) : Absorbed :=
  let t : BitVec 12 := (a.setWidth 12 <<< 8) ||| b.setWidth 12
  let r := cutGroups 3 t (n.toNat + 8)
  ⟨youngestBits t r.2, BitVec.ofNat 3 r.2, r.1⟩

/-- `b32_flush(a, n)` (R103): the pending bits on top, zero bits below. -/
def b32Flush (a : BitVec 4) (n : BitVec 3) : List Byte :=
  if n = 0 then [] else [alpha (a.setWidth 5 <<< (5 - n.toNat))]

/-- One turn of the loop of R104. -/
def Absorbed.feed (r : Absorbed) (b : Byte) : Absorbed :=
  let q := b32Absorb r.acc r.nb b
  ⟨q.acc, q.nb, r.chars ++ q.chars⟩

/-- `b32_absorb` over a sequence of bytes, first byte first, the characters collected (the loop of R104). -/
def b32Feed (a : BitVec 4) (n : BitVec 3) (m : List Byte) : Absorbed := m.foldl Absorbed.feed ⟨a, n, []⟩

/-- `b32(m)` (R104). -/
def b32 (m : List Byte) : List Byte :=
  let r := b32Feed 0 0 m
  r.chars ++ b32Flush r.acc r.nb

/-! ### The same text from the message's bits (R100), and the padded form (R109) -/

/-- Five bits as a symbol index, the first bit the most significant (R100). -/
def symbolOf (b4 b3 b2 b1 b0 : Bool) : BitVec 5 := BitVec.ofBoolListBE [b4, b3, b2, b1, b0]

/-- Cut a bit string into groups of five from the front; a short last group is filled with zero bits on the right
(R100). -/
def groupsOfFive : List Bool → List (BitVec 5)
  | [] => []
  | [a] => [symbolOf a false false false false]
  | [a, b] => [symbolOf a b false false false]
  | [a, b, c] => [symbolOf a b c false false]
  | [a, b, c, d] => [symbolOf a b c d false]
  | a :: b :: c :: d :: e :: rest => symbolOf a b c d e :: groupsOfFive rest

/-- R100: the text as the alphabet's characters of the message's 5-bit groups. -/
def b32ByGroups (m : List Byte) : List Byte := (groupsOfFive (messageBits m)).map alpha

/-- The pad counts `P` of R109. -/
def padCount (lengthMod5 : Nat) : Nat := [0, 6, 4, 3, 1].getD lengthMod5 0

/-- `b32_padded(m)` (R109). The block never builds it. -/
def b32Padded (m : List Byte) : List Byte := b32 m ++ List.replicate (padCount (m.length % 5)) padChar

/-- `strip(s)`: remove every `=` at the end (R109). -/
def stripPads (text : List Byte) : List Byte := (text.reverse.dropWhile (· == padChar)).reverse

/-! ### Meanings -/

/-- Take one byte into the Base32 text: emit its characters, keep the leftover bits (R106). -/
def State.absorb (s : State) (b : Byte) : State :=
  let r := b32Absorb s.acc s.nb b
  (s.emitAll r.chars).setPending r.acc r.nb

/-- `B32.INIT` (R105): pending bits are thrown away. -/
def execB32Init (s : State) : Result := ifRunning s (s.setPending 0 0)

/-- `B32.BYTE b` (R106). -/
def execB32Byte (b : Byte) (s : State) : Result := ifRunning s (s.absorb b)

/-- `B32.FINAL` (R107): the last short group, no pad. -/
def execB32Final (s : State) : Result := ifRunning s ((s.emitAll (b32Flush s.acc s.nb)).setPending 0 0)

/-- `B32.CRC` (R108): the checksum's two bytes, low byte first, into the Base32 text. -/
def execB32Crc (s : State) : Result := ifRunning s ((s.absorb (lowByte s.crc)).absorb (highByte s.crc))

end Sys2Proof.Machine
end

