-- ==== Sys2Proof/Machine/FrameSequencer.lean ====
section
/-! DEFINITION. The frame sequencer (42_strkey): the byte sequences of the frame, and the meanings of KEY.CLR,
KEY.PUSH and SK.ENC. -/

namespace Sys2Proof.Machine

/-- `VER`, the hardwired version byte (00_scope R8). -/
def versionByte : Byte := 0x90

/-- The value of `KLEN` that means exactly `KEY_LEN` = 32 bytes (R8, 10_state R26). -/
def fullKlen : BitVec 6 := 32

/-- The value of `KLEN` that means more than 32 bytes (10_state R26). -/
def overfullKlen : BitVec 6 := 33

/-- The versioned payload `VP(k)` (R120). -/
def versionedPayload (k : List Byte) : List Byte := versionByte :: k

/-- The checksum `CK(k)`, low byte first (R120). -/
def checksum (k : List Byte) : List Byte := checksumBytes (crc16 (versionedPayload k))

/-- The full payload `FP(k)` (R120). -/
def fullPayload (k : List Byte) : List Byte := versionedPayload k ++ checksum k

/-- The encoded address `addr(k)` (R120, 00_scope R15). -/
def encodedAddress (k : List Byte) : List Byte := b32 (fullPayload k)

/-- The raw key: `KEYBUF[0]` to `KEYBUF[31]` in index order (R120, 20_memory R58). -/
def State.rawKey (s : State) : List Byte := (List.range 32).map s.memRead

/-- The effect of `SK.ENC` once the length test has passed (R124): the 56 characters, the checksum left in `CRC`, the
Base32 unit and the key count cleared. It reads none of `CRC`, `ACC`, `NB`. -/
def State.encodeKey (s : State) : State :=
  (((s.emitAll (encodedAddress s.rawKey)).setCrc (crc16 (versionedPayload s.rawKey))).setPending 0 0).setKlen 0

/-- The effect of `KEY.PUSH b` (R122): at `KLEN >= 32` the byte is counted as too many and not stored. -/
def State.pushKey (s : State) (b : Byte) : State :=
  if s.klen < fullKlen then (s.memWrite s.klen.toNat b).setKlen (s.klen + 1) else s.setKlen overfullKlen

/-- `KEY.CLR` (R121): `KLEN <- 0`; the bytes stay. -/
def execKeyClr (s : State) : Result := ifRunning s (s.setKlen 0)

/-- `KEY.PUSH b` (R122). -/
def execKeyPush (b : Byte) (s : State) : Result := ifRunning s (s.pushKey b)

/-- `SK.ENC` (R124): the length test comes before everything else (R152, R157). -/
def execSkEnc (s : State) : Result :=
  ifRunning s (if s.klen = fullKlen then s.encodeKey else s.raise .invalidLength)

end Sys2Proof.Machine
end

