-- ==== Sys2Proof/Machine/SystemUnit.lean ====
section
/-! DEFINITION. The system command STAT.READ (43_system). -/

namespace Sys2Proof.Machine

/-- `STAT.READ` (R140): emit the status byte, in a running and in a halted block alike (30_encoding R70, 60_exceptions
R154). Reading does not clear it. -/
def execStatRead (s : State) : Result := .next (s.emitAll [s.statusByte])

end Sys2Proof.Machine
end

