-- ==== Sys2Proof/Machine/Dispatch.lean ====
section
/-! DEFINITION. The case split of 30_encoding R70: one arm per command. -/

namespace Sys2Proof.Machine

def exec (i : Instr) (s : State) : Host.Outcome State Fault Refusal :=
  match i with
  | .crcInit => Sys2Proof.Machine.execCrcInit s
  | .crcByte b => Sys2Proof.Machine.execCrcByte b s
  | .crcRead => Sys2Proof.Machine.execCrcRead s
  | .b32Init => Sys2Proof.Machine.execB32Init s
  | .b32Byte b => Sys2Proof.Machine.execB32Byte b s
  | .b32Final => Sys2Proof.Machine.execB32Final s
  | .b32Crc => Sys2Proof.Machine.execB32Crc s
  | .keyClr => Sys2Proof.Machine.execKeyClr s
  | .keyPush b => Sys2Proof.Machine.execKeyPush b s
  | .skEnc => Sys2Proof.Machine.execSkEnc s
  | .statRead => Sys2Proof.Machine.execStatRead s

end Sys2Proof.Machine
end

