-- ==== Sys2Proof/Machine/Take.lean ====
section
/-! DEFINITION. Taking one command word: the function `step(S, w)` of 30_encoding R70 and 00_scope R14. The halted test
of R70 stands in each meaning and in `takeIllegal` (log entry 15). -/

namespace Sys2Proof.Machine

/-- An illegal word (60_exceptions R151): a running block raises `IllegalCommand`, a halted block drops the word (R154,
R155). Neither the word nor the reason is recorded (R150). -/
def takeIllegal (_why : IllegalWord) (s : State) : Result := ifRunning s (s.raise .illegalCommand)

/-- `step(S, w)` (R70): the state after the block, in state `s`, has taken the word `w`. -/
def takeWord (w : Word) (s : State) : Result :=
  match decode w with
  | .command i => exec i s
  | .illegal why => takeIllegal why s

end Sys2Proof.Machine
end

