-- ==== Sys2Proof/Machine/Step.lean ====
section
/-! DEFINITION. One step of the machine: the host's next event comes to the block (00_scope R3, R14). -/

namespace Sys2Proof.Machine

/-- A command word is taken as R70 says; any other port event is over at once. -/
def step (s : State) : Host.Outcome State Fault Refusal :=
  match fetch s with
  | .port t => .next t
  | .word w t => takeWord w t

/-- `s` with this word as the one the command port takes next. -/
def State.withFetchWord (s : State) (nbits w : Nat) : State := s.placeWord nbits w

end Sys2Proof.Machine
end

