-- ==== Sys2Proof/Machine/Assembler.lean ====
section
/-! DEFINITION. Assembler syntax (30_encoding R67) and the five pseudo-instructions (R68). Notation of the spec's
listings; the block knows none of it. -/

namespace Sys2Proof.Machine

/-- The mnemonic of R63. -/
def mnemonicOf : Instr → String
  | .crcInit => "CRC.INIT"
  | .crcByte _ => "CRC.BYTE"
  | .crcRead => "CRC.READ"
  | .b32Init => "B32.INIT"
  | .b32Byte _ => "B32.BYTE"
  | .b32Final => "B32.FINAL"
  | .b32Crc => "B32.CRC"
  | .keyClr => "KEY.CLR"
  | .keyPush _ => "KEY.PUSH"
  | .skEnc => "SK.ENC"
  | .statRead => "STAT.READ"

/-- The operand of the three commands that have one (R61). -/
def operandOf : Instr → Option Byte
  | .crcByte b => some b
  | .b32Byte b => some b
  | .keyPush b => some b
  | .crcInit => none
  | .crcRead => none
  | .b32Init => none
  | .b32Final => none
  | .b32Crc => none
  | .keyClr => none
  | .skEnc => none
  | .statRead => none

/-- A hexadecimal digit, capitals as the spec's listings have them. -/
def hexDigit (n : BitVec 4) : String :=
  ["0", "1", "2", "3", "4", "5", "6", "7", "8", "9", "A", "B", "C", "D", "E", "F"].getD n.toNat ""

/-- Two hexadecimal digits. -/
def hexByte (b : Byte) : String := hexDigit (b.extractLsb' 4 4) ++ hexDigit (b.extractLsb' 0 4)

/-- A command in assembler syntax: the mnemonic, and for the three operand commands one space and the operand as `0x`
and two digits (R67). -/
def assemblerText (i : Instr) : String :=
  match operandOf i with
  | some b => mnemonicOf i ++ " 0x" ++ hexByte b
  | none => mnemonicOf i

/-- A line of a listing: the word in four digits, two spaces, the command (R67). -/
def listingLine (i : Instr) : String :=
  hexByte (opcField (encode i)) ++ hexByte (immField (encode i)) ++ "  " ++ assemblerText i

/-- The pseudo-instructions of R68. -/
inductive Pseudo where
  | crcMsg (m : List Byte)
  | b32Msg (m : List Byte)
  | keyLoad (m : List Byte)
  | skEncode (k : List Byte)
  | bothByte (b : Byte)
  deriving DecidableEq, Repr

/-- What a pseudo-instruction stands for (R68). -/
def expand : Pseudo → List Instr
  | .crcMsg m => .crcInit :: m.map Instr.crcByte
  | .b32Msg m => .b32Init :: (m.map Instr.b32Byte ++ [.b32Final])
  | .keyLoad m => .keyClr :: m.map Instr.keyPush
  | .skEncode k => .keyClr :: (k.map Instr.keyPush ++ [.skEnc])
  | .bothByte b => [.crcByte b, .b32Byte b]

end Sys2Proof.Machine
end

