-- ==== Sys2Proof/Machine/HostFrontEnd.lean ====
section
/-! DEFINITION. The host front end (42_strkey R131 to R135): duties of the software in front of the block, modelled as
functions beside it. They bind the host, not the block. -/

namespace Sys2Proof.Machine

/-- The two error kinds of the whole `encode` (R135). -/
inductive HostError where
  /-- `DecodingError`: a non-hex character or an odd number of digits (R132). -/
  | decodingError
  /-- `InvalidLengthError`: valid hex of other than 32 bytes (R133). -/
  | invalidLengthError
  deriving DecidableEq, Repr

/-- What the host has in hand after a stage: a value or one of the two errors. -/
inductive HostAnswer (α : Type) where
  | ok (a : α)
  | error (e : HostError)
  deriving DecidableEq, Repr

/-- Step 1 (R131): at most one leading `0x`, lower case, is stripped; nothing else is changed. -/
def strip0x : List Char → List Char
  | '0' :: 'x' :: digits => digits
  | text => text

/-- The value of a hex digit. `A` to `F` are left to the host (R132, 93 V9; log entry 9). -/
def hexValue (c : Char) : Option Nat :=
  if '0' ≤ c ∧ c ≤ '9' then some (c.toNat - '0'.toNat)
  else if 'a' ≤ c ∧ c ≤ 'f' then some (c.toNat - 'a'.toNat + 10)
  else if 'A' ≤ c ∧ c ≤ 'F' then (if Config.hostAcceptsUpperHex then some (c.toNat - 'A'.toNat + 10) else none)
  else none

/-- Step 2 (R132): pairs of digits, the first the high nibble, the first pair the first key byte. -/
def parseHex : List Char → HostAnswer (List Byte)
  | [] => .ok []
  | [_] => .error .decodingError
  | h :: l :: rest =>
    match hexValue h, hexValue l, parseHex rest with
    | some a, some b, .ok bytes => .ok (BitVec.ofNat 8 (16 * a + b) :: bytes)
    | _, _, _ => .error .decodingError

/-- Steps 1 to 3 (R131 to R133): hex first, length second. The empty string is valid hex for no byte and fails with
the length error (90_conflicts C2). -/
def hostRawKey (text : List Char) : HostAnswer (List Byte) :=
  match parseHex (strip0x text) with
  | .error e => .error e
  | .ok k => if k.length = 32 then .ok k else .error .invalidLengthError

/-- The words a list of commands is sent as. -/
def wordsOf (is : List Instr) : List PortEvent := is.map fun i => PortEvent.command (encode i)

/-- Steps 4 to 9 (R134): the 34 words of `SK.ENCODE`, or the error and no word at all. -/
def hostEncode (text : List Char) : HostAnswer (List PortEvent) :=
  match hostRawKey text with
  | .error e => .error e
  | .ok k => .ok (wordsOf (expand (.skEncode k)))

/-- The other correct way (R133): push whatever was decoded and let `SK.ENC` test the length. -/
def hostPushAll (text : List Char) : HostAnswer (List PortEvent) :=
  match parseHex (strip0x text) with
  | .error e => .error e
  | .ok k => .ok (wordsOf (expand (.skEncode k)))

end Sys2Proof.Machine
end

