-- ==== Sys2Proof/Machine/HostSession.lean ====
section
/-! DEFINITION. The host's whole `encode` on the block (42_strkey R133 to R135, 60_exceptions R163): the commands it
sends, the 56 bytes it takes as the address, and what it does when `FAULT` rises. It binds the host, not the block;
its conventions are log entry 16. -/

namespace Sys2Proof.Machine

/-- What the host ends up with. -/
structure HostSession where
  /-- The address, an ASCII string (R134), or the error reported to the caller (R135). -/
  answer : HostAnswer (List Byte)
  /-- The status byte, where the host read the cause of a fault (R134). -/
  status : Option Byte
  /-- The block afterwards. -/
  block : State
  deriving DecidableEq, Repr

/-- Go on with `f` where `r` is a next state. -/
def andThen {σ τ : Type} (r : Host.Outcome σ Fault Refusal) (f : σ → Host.Outcome τ Fault Refusal) :
    Host.Outcome τ Fault Refusal :=
  match r with
  | .next s => f s
  | .fault e => .fault e
  | .refused e => .refused e

/-- The host does `es` now, before the events it still has in hand. -/
def runEvents : List PortEvent → State → Result
  | [], s => .next s
  | e :: es, s => andThen (step (s.setHost (e :: s.host))) (runEvents es)

/-- Take the next `n` bytes of `OUT` (20_memory R42). -/
def receive (n : Nat) (s : State) : Host.Outcome (List Byte × State) Fault Refusal :=
  andThen (runEvents (List.replicate n .takeByte) s) fun t => .next (t.delivered.drop s.taken, t)

/-- Before it starts, the host resets a block an earlier fault has halted (60_exceptions R159, 70 R183) and takes the
bytes of `OUT` that are left from before, so that the next 56 are the address. DESIGN CHOICE, log entry 16. -/
def preparation (s : State) : List PortEvent :=
  if s.faultOutput then [.reset] else List.replicate (s.out.length - s.taken) .takeByte

/-- `FAULT` has risen (R133, R134): the host reads the cause with `STAT.READ` if it wants it, resets the block and reports
`InvalidLengthError`, the only error its words can meet in a block that was running. -/
def hostRecover (readsStatus : Bool) (s : State) : Host.Outcome HostSession Fault Refusal :=
  if readsStatus then
    andThen (runEvents [.command (encode .statRead)] s) fun t =>
    andThen (receive 1 t) fun r =>
    andThen (runEvents [.reset] r.2) fun u => .next ⟨.error .invalidLengthError, r.1.head?, u⟩
  else andThen (runEvents [.reset] s) fun u => .next ⟨.error .invalidLengthError, none, u⟩

/-- Send the words; take the next 56 bytes of `OUT` as the address, or recover where `FAULT` rises instead (R134). -/
def hostConverse (readsStatus : Bool) (words : List PortEvent) (s : State) : Host.Outcome HostSession Fault Refusal :=
  andThen (runEvents (preparation s) s) fun r =>
  andThen (runEvents words r) fun t =>
    if t.faultOutput then hostRecover readsStatus t
    else andThen (receive 56 t) fun a => .next ⟨.ok a.1, none, a.2⟩

/-- A host with these words or this error: on an error it sends no command (R135). -/
def hostSession (readsStatus : Bool) (words : HostAnswer (List PortEvent)) (s : State) :
    Host.Outcome HostSession Fault Refusal :=
  match words with
  | .error e => .next ⟨.error e, none, s⟩
  | .ok ws => hostConverse readsStatus ws s

/-- `encode` by the first way of R133: the host checks the length itself and never starts the block otherwise. -/
def encodeChecking (readsStatus : Bool) (text : List Char) (s : State) : Host.Outcome HostSession Fault Refusal :=
  hostSession readsStatus (hostEncode text) s

/-- `encode` by the second way of R133: the host pushes whatever it decoded, lets `SK.ENC` fault, then reports
`InvalidLengthError` and resets the block. -/
def encodePushing (readsStatus : Bool) (text : List Char) (s : State) : Host.Outcome HostSession Fault Refusal :=
  hostSession readsStatus (hostPushAll text) s

end Sys2Proof.Machine
end

