-- ==== Sys2Proof/Safety.lean ====
section
/-! DEFINITION. What claims about the block are stated in: the invariant of reachable states (10_state R20, R24, R25,
R26, R28) and a successful run (60_exceptions R158, 70 R182). -/

namespace Sys2Proof.Machine

/-- The pending bits are legal: `0 <= NB <= 4` and `ACC < 2^NB` (R24). -/
abbrev State.PendingLegal (s : State) : Prop := s.nb.toNat ≤ 4 ∧ s.acc.toNat < 2 ^ s.nb.toNat

/-- The key buffer is legal: `KLEN` is at most 33 (R26), the buffer is in canonical form, and each of its first
`min(KLEN, 32)` bytes has been written since reset (R25, 93 V5). -/
abbrev State.KeyLegal (s : State) : Prop :=
  s.klen.toNat ≤ 33 ∧ s.keybuf.wf = true ∧ ∀ i < min s.klen.toNat 32, (s.keybuf.lookup i).isSome = true

/-- What holds in every reachable state. `CAUSE` is 0, 1 or 2 (R28); the last clause is the model's own: the output
port has delivered no byte that was not emitted (20_memory R42). -/
abbrev State.Inv (s : State) : Prop :=
  s.PendingLegal ∧ s.KeyLegal ∧ s.cause.toNat ≤ 2 ∧ s.taken ≤ s.out.length

/-- A run is successful when `CAUSE = 0` at its end (R158, R182). -/
abbrev State.Successful (s : State) : Prop := s.cause = 0

/-- The bytes a command sequence gives to the CRC unit, in order (10_state R21, 70 R174). -/
def crcOperands : List Instr → List Byte
  | [] => []
  | .crcByte b :: is => b :: crcOperands is
  | _ :: is => crcOperands is

/-- A sequence of commands, each to its end before the next begins (20_memory R53). It stops where a command does not
answer a next state. -/
def execAll : List Instr → State → Result
  | [], s => .next s
  | i :: is, s =>
    match exec i s with
    | .next t => execAll is t
    | .fault r => .fault r
    | .refused r => .refused r

/-- Two key buffers agree on every byte that has meaning at length `n`: indexes below `min(n, 32)` (R25). -/
def Memory.agreeBelow (n : Nat) (m m' : Memory) : Prop := ∀ i < min n 32, m.lookup i = m'.lookup i

end Sys2Proof.Machine
end

