-- ==== Sys2Proof/Certificates/Slice0/Obligations.lean ====
section
/-! DEFINITION. The statements for the provers. Each docstring names the rules it formalises. `s.cause = 0` is a running
block (10_state R28), `s.PendingLegal` and `s.Inv` are in Safety.lean. A result equation `exec i s = .next t` with `t`
written out gives the whole next state, so it is completion, result and frame at once. -/

open Sys2Proof Sys2Proof.Machine

/-! ### Encoding and decoding -/

/-- R69: decode is the test sequence the rule prints, illegal where it returns ILLEGAL, and it is the inverse of encode
in both directions: a word decodes to a command exactly when it is that command's word. -/
def Obligations.DecodeInvertsEncode : Prop :=
  (∀ i : Instr, decode (encode i) = .command i) ∧
  (∀ (w : Word) (i : Instr), decode w = .command i → w = encode i) ∧
  (∀ b : Byte, encode (.crcByte b) = 0x1100 + b.setWidth 16) ∧
  ∀ w : Word, (decode w).command? =
    let opc : Byte := w.extractLsb' 8 8
    let imm : Byte := w.extractLsb' 0 8
    if opc = 0x11 then some (.crcByte imm)
    else if opc = 0x21 then some (.b32Byte imm)
    else if opc = 0x31 then some (.keyPush imm)
    else if imm ≠ 0x00 then none
    else if opc = 0x10 then some .crcInit
    else if opc = 0x12 then some .crcRead
    else if opc = 0x20 then some .b32Init
    else if opc = 0x22 then some .b32Final
    else if opc = 0x23 then some .b32Crc
    else if opc = 0x30 then some .keyClr
    else if opc = 0x32 then some .skEnc
    else if opc = 0x40 then some .statRead
    else none

/-- R63: a word is a command exactly when it selects a row of the opcode map, the row it selects is its command's, no
word selects two rows, and there are 776 such words. -/
def Obligations.DecoderFollowsTheOpcodeMap : Prop :=
  (∀ w : Word, (∃ i, decode w = .command i) ↔ legalWord w = true) ∧
  (∀ (w : Word) (i : Instr), decode w = .command i →
    ∀ row ∈ opcodeMap, row.selects w = true → row.mnemonic = mnemonicOf i) ∧
  opcodeMap.Pairwise (fun r q => ∀ w : Word, ¬ (r.selects w = true ∧ q.selects w = true)) ∧
  (Finset.univ.filter fun w : Word => legalWord w = true).card = 776

/-- R64: the illegal words are of two kinds, by opcode, 62720 and 2040 of them; the all-zero and the all-one word are
illegal; an illegal word raises `IllegalCommand` in a running block and is dropped in a halted one. -/
def Obligations.IllegalWordsAreOfTwoKinds : Prop :=
  (∀ w : Word, (∃ opc, decode w = .illegal (.unassignedOpcode opc)) ↔
    opcField w ∉ ([0x10, 0x11, 0x12, 0x20, 0x21, 0x22, 0x23, 0x30, 0x31, 0x32, 0x40] : List Byte)) ∧
  (∀ w : Word, (∃ opc imm, decode w = .illegal (.reservedOperand opc imm)) ↔
    opcField w ∈ ([0x10, 0x12, 0x20, 0x22, 0x23, 0x30, 0x32, 0x40] : List Byte) ∧ immField w ≠ 0) ∧
  (Finset.univ.filter fun w : Word => opcodeAssigned w = false).card = 62720 ∧
  (Finset.univ.filter fun w : Word => opcodeAssigned w = true ∧ reservedOperandZero w = false).card = 2040 ∧
  (∀ w : Word, (∃ why, decode w = .illegal why) ↔ wordWellFormed w = false) ∧
  wordWellFormed 0x0000 = false ∧ wordWellFormed 0xFFFF = false ∧
  ∀ (s : State) (w : Word), wordWellFormed w = false →
    takeWord w s = .next { s with cause := if s.cause = 0 then 1 else s.cause }

/-- Sanity: words of 95 section 4.3 decode as printed there. -/
def Obligations.PrintedWordsDecodeAsPrinted : Prop :=
  decode 0x1000 = .command .crcInit ∧ decode 0x11FF = .command (.crcByte 0xFF) ∧ decode 0x1200 = .command .crcRead ∧
  decode 0x2000 = .command .b32Init ∧ decode 0x213D = .command (.b32Byte 0x3D) ∧
  decode 0x2200 = .command .b32Final ∧ decode 0x2300 = .command .b32Crc ∧ decode 0x3000 = .command .keyClr ∧
  decode 0x3190 = .command (.keyPush 0x90) ∧ decode 0x3200 = .command .skEnc ∧
  decode 0x4000 = .command .statRead ∧ decode 0x1001 = .illegal (.reservedOperand 0x10 0x01) ∧
  decode 0x0011 = .illegal (.unassignedOpcode 0x00)

/-! ### The step and the ports -/

/-- R70, R14: a step takes the word at the command port and runs the decoded command in the state that no longer holds
the word; what the host places is what the next step runs. (The list of port events is the model's, log entry 2.) -/
def Obligations.StepRunsTheDecodedCommand : Prop :=
  (∀ (s : State) (w : Word) (later : List PortEvent),
    s.host = .command w :: later → step s = takeWord w { s with host := later }) ∧
  (∀ (s : State) (w : Word) (later : List PortEvent) (i : Instr),
    s.host = .command w :: later → decode w = .command i → step s = exec i { s with host := later }) ∧
  ∀ (s : State) (i : Instr), step (s.withFetchWord 16 (encode i).toNat) = exec i s

/-- For every state there is a next state; a step neither faults nor refuses. R70 gives this for a word at the port; that
a step is taken, and changes nothing, when no event waits is the model's (log entry 3), and that taking an output byte
and RST are steps of their own is too (log entries 4 and 5). -/
def Obligations.StepIsTotal : Prop := ∀ s : State, ∃ t, step s = .next t

/-- R70: what `step(S, w)` is, case by case, with the order of the tests: halted first, then legality; and it is total:
for every state and word there is a next state. -/
def Obligations.StepTestsHaltedThenLegality : Prop :=
  ∀ (s : State) (w : Word),
    (takeWord w s =
      if s.cause ≠ 0 then
        (if decode w = .command .statRead then .next { s with out := s.out ++ [s.cause.setWidth 8] }
        else .next s)
      else
        match decode w with
        | .command i => exec i s
        | .illegal _ => .next { s with cause := 1 }) ∧
    ∃ t, takeWord w s = .next t

/-- R170, R33: `RST` gives the reset state, whatever the state before, halted or not. Four clauses are the model's, not the
spec's: no key byte is listed (log entries 1 and 14; R33 and R170 call `KEYBUF` unspecified), the host's later events
stay (log entry 2), no byte of the new `OUT` has been delivered (log entry 5), the ended run's `OUT` is kept apart (log
entry 4). -/
def Obligations.ResetInputGivesTheResetState : Prop :=
  ∀ (s : State) (later : List PortEvent), s.host = .reset :: later →
    ∃ t, step s = .next t ∧ t.crc = 0x0000 ∧ t.acc = 0 ∧ t.nb = 0 ∧ t.klen = 0 ∧ t.cause = 0 ∧ t.out = [] ∧
      t.statusByte = 0x00 ∧ t.faultOutput = false ∧ (∀ i, t.keybuf.lookup i = none) ∧
      t.host = later ∧ t.taken = 0 ∧ t.pastRuns = s.pastRuns ++ [s.out]

/-- R33: the machine right after reset. -/
def Obligations.ResetStateHasTheSpecsValues : Prop :=
  State.reset.crc = 0x0000 ∧ State.reset.acc = 0 ∧ State.reset.nb = 0 ∧ State.reset.klen = 0 ∧
  State.reset.cause = 0 ∧ State.reset.statusByte = 0x00 ∧ State.reset.out = [] ∧ State.reset.faultOutput = false

/-- R41, R170: while the host sends nothing, nothing changes. (That a step is then taken at all is the model's, log
entry 3.) -/
def Obligations.WaitingChangesNothing : Prop := ∀ s : State, s.host = [] → step s = .next s

/-- R42: the output port delivers the bytes of `OUT` one by one, oldest first, none lost or repeated; taking one
changes nothing of the block. (The count `taken` is the model's, log entry 5.) -/
def Obligations.OutputPortDeliversInOrder : Prop :=
  ∀ (s : State) (later : List PortEvent), s.host = .takeByte :: later →
    (∀ b, s.offered = some b →
      step s = .next { s with host := later, taken := s.taken + 1 } ∧
      ∀ t, step s = .next t → t.delivered = s.delivered ++ [b]) ∧
    (s.offered = none → step s = .next { s with host := later })

/-! ### The commands in a running block -/

/-- R83: CRC.INIT. -/
def Obligations.CrcInitStartsANewComputation : Prop :=
  encode .crcInit = 0x1000 ∧
  (∀ s : State, s.cause = 0 → exec .crcInit s = .next { s with crc := 0x0000 }) ∧
  (∀ imm : Byte, imm ≠ 0 → ∃ why, decode (0x10#8 ++ imm) = .illegal why) ∧
  exec .crcInit State.reset = .next State.reset

/-- R84: CRC.BYTE b: the register takes `crc_step(CRC, b)`; zero from zero stays zero; for a fixed byte the map is a
bijection. -/
def Obligations.CrcByteTakesOneByte : Prop :=
  (∀ b : Byte, encode (.crcByte b) = 0x1100 + b.setWidth 16) ∧
  (∀ (s : State) (b : Byte), s.cause = 0 → exec (.crcByte b) s = .next { s with crc := crcStep s.crc b }) ∧
  crcStep 0x0000 0x00 = 0x0000 ∧ crcStep 0x0000 0x31 = 0x2672 ∧
  (∀ b : Byte, Function.Bijective fun c => crcStep c b)

/-- R85, R46: CRC.READ emits the register low byte first and keeps it. -/
def Obligations.CrcReadEmitsLowByteFirst : Prop :=
  encode .crcRead = 0x1200 ∧
  ∀ s : State, s.cause = 0 →
    exec .crcRead s = .next { s with out := s.out ++ [s.crc.extractLsb' 0 8, s.crc.extractLsb' 8 8] }

/-- R105: B32.INIT throws the pending bits away. -/
def Obligations.B32InitStartsANewText : Prop :=
  encode .b32Init = 0x2000 ∧
  (∀ s : State, s.cause = 0 → exec .b32Init s = .next { s with acc := 0, nb := 0 }) ∧
  exec .b32Init State.reset = .next State.reset

/-- R106: B32.BYTE b: `b32_absorb` on the pending bits, its characters emitted in order: one when `NB` was 0 or 1, two
when it was 2, 3 or 4; from `NB = 2` no bit is left over. -/
def Obligations.B32ByteTakesOneByte : Prop :=
  (∀ b : Byte, encode (.b32Byte b) = 0x2100 + b.setWidth 16) ∧
  (∀ (s : State) (b : Byte), s.cause = 0 →
    exec (.b32Byte b) s = .next { s with
      acc := (b32Absorb s.acc s.nb b).acc
      nb := (b32Absorb s.acc s.nb b).nb
      out := s.out ++ (b32Absorb s.acc s.nb b).chars }) ∧
  (∀ (a : BitVec 4) (n : BitVec 3) (b : Byte), n.toNat ≤ 4 →
    (b32Absorb a n b).chars.length = (if n.toNat ≤ 1 then 1 else 2)) ∧
  (∀ (a : BitVec 4) (b : Byte), (b32Absorb a 2 b).nb = 0) ∧
  b32Absorb 0 0 0x66 = ⟨0b0110, 3, [0x4D]⟩

/-- R107, R103: B32.FINAL emits the last short group, nothing when no bit is pending, never a pad, and clears the
unit; a second one in a row emits nothing. -/
def Obligations.B32FinalEndsTheText : Prop :=
  encode .b32Final = 0x2200 ∧
  (∀ s : State, s.cause = 0 →
    exec .b32Final s = .next { s with acc := 0, nb := 0, out := s.out ++ b32Flush s.acc s.nb }) ∧
  (∀ a : BitVec 4, b32Flush a 0 = []) ∧
  (∀ (a : BitVec 4) (n : BitVec 3), n ≠ 0 → (b32Flush a n).length = 1) ∧
  (∀ (a : BitVec 4) (n : BitVec 3), padChar ∉ b32Flush a n) ∧ b32Flush 0b0110 3 = [0x59] ∧
  (∀ s t : State, s.cause = 0 → exec .b32Final s = .next t → exec .b32Final t = .next t)

/-- R108: B32.CRC is B32.BYTE of the checksum's low byte followed by B32.BYTE of its high byte; three or four
characters; `CRC` unchanged. -/
def Obligations.B32CrcAppendsTheChecksum : Prop :=
  encode .b32Crc = 0x2300 ∧
  (∀ s : State, s.cause = 0 → ∃ t, exec .b32Crc s = .next t ∧
    execAll [.b32Byte (s.crc.extractLsb' 0 8), .b32Byte (s.crc.extractLsb' 8 8)] s = .next t ∧ t.crc = s.crc ∧
    (s.PendingLegal →
      t.out.length = s.out.length + (if s.nb.toNat ≤ 3 then 3 else 4) ∧ t.nb.toNat = (s.nb.toNat + 16) % 5))

/-- R121: KEY.CLR sets `KLEN` to 0 and leaves the bytes alone. -/
def Obligations.KeyClrEmptiesTheBuffer : Prop :=
  encode .keyClr = 0x3000 ∧
  (∀ s : State, s.cause = 0 → exec .keyClr s = .next { s with klen := 0 }) ∧
  exec .keyClr State.reset = .next State.reset

/-- R122: KEY.PUSH b stores at `KEYBUF[KLEN]` and counts; from 32 on it stores nothing and counts 33; at 33 it changes
nothing, and no command but KEY.CLR leads away from 33. -/
def Obligations.KeyPushStoresAndCounts : Prop :=
  (∀ b : Byte, encode (.keyPush b) = 0x3100 + b.setWidth 16) ∧
  (∀ (s : State) (b : Byte), s.cause = 0 → s.klen.toNat < 32 →
    ∃ m : Memory, exec (.keyPush b) s = .next { s with keybuf := m, klen := s.klen + 1 } ∧
      m.lookup s.klen.toNat = some b ∧ ∀ j, j ≠ s.klen.toNat → m.lookup j = s.keybuf.lookup j) ∧
  (∀ (s : State) (b : Byte), s.cause = 0 → 32 ≤ s.klen.toNat → exec (.keyPush b) s = .next { s with klen := 33 }) ∧
  (∀ (s : State) (b : Byte), s.cause = 0 → s.klen = 33 → exec (.keyPush b) s = .next s) ∧
  (∀ (i : Instr) (s t : State), s.cause = 0 → s.klen = 33 → i ≠ .keyClr → exec i s = .next t → t.klen = 33)

/-- R124, R120: SK.ENC with `KLEN = 32` appends `addr(k)` to `OUT`, exactly 56 characters, leaves the checksum in `CRC`
and clears `ACC`, `NB`, `KLEN`; with any other `KLEN` it sets `CAUSE` to 2 and does nothing else; a CRC.READ after it emits `CK(k)`; a second SK.ENC in a row faults. `addr(k)` is
written out: `b32` of 0x90, the 32 bytes of `KEYBUF` in index order, and the CRC of these 33 low byte first. -/
def Obligations.SkEncEncodesTheKey : Prop :=
  encode .skEnc = 0x3200 ∧
  (∀ s : State, s.cause = 0 → s.klen ≠ 32 → exec .skEnc s = .next { s with cause := 2 }) ∧
  ∀ s : State, s.cause = 0 → s.klen = 32 →
    let vp : List Byte := 0x90 :: (List.range 32).map s.memRead
    let c := crc16 vp
    let addr := b32 (vp ++ [c.extractLsb' 0 8, c.extractLsb' 8 8])
    let t : State := { s with out := s.out ++ addr, crc := c, acc := 0, nb := 0, klen := 0 }
    exec .skEnc s = .next t ∧ addr.length = 56 ∧
    exec .crcRead t = .next { t with out := t.out ++ [c.extractLsb' 0 8, c.extractLsb' 8 8] } ∧
    exec .skEnc t = .next { t with cause := 2 }

/-- R140: STAT.READ emits `zext_8(CAUSE)` and changes nothing else, in a running and in a halted block. -/
def Obligations.StatReadEmitsTheStatus : Prop :=
  encode .statRead = 0x4000 ∧
  (∀ s : State, exec .statRead s = .next { s with out := s.out ++ [s.cause.setWidth 8] }) ∧
  (∀ s : State, s.cause = 0 → exec .statRead s = .next { s with out := s.out ++ [0x00] }) ∧
  (∀ imm : Byte, imm ≠ 0 → ∃ why, decode (0x40#8 ++ imm) = .illegal why)

/-! ### Faults and the halted block -/

/-- R151: an illegal word in a running block sets `CAUSE` to 1 and does nothing else. -/
def Obligations.IllegalWordFaults : Prop :=
  ∀ (s : State) (w : Word) (why : IllegalWord), s.cause = 0 → decode w = .illegal why →
    takeWord w s = .next { s with cause := 1 }

/-- R152: SK.ENC in a running block with `KLEN` other than 32 sets `CAUSE` to 2 and does nothing else. -/
def Obligations.SkEncOnWrongLengthFaults : Prop :=
  ∀ s : State, s.cause = 0 → s.klen ≠ 32 → exec .skEnc s = .next { s with cause := 2 }

/-- R154: a halted block emits the status byte for STAT.READ and drops every other word, legal or illegal. -/
def Obligations.HaltedBlockDropsEveryOtherWord : Prop :=
  (∀ (s : State) (i : Instr), s.cause ≠ 0 → i ≠ .statRead → exec i s = .next s) ∧
  ∀ (s : State) (w : Word), s.cause ≠ 0 →
    (w = 0x4000 → takeWord w s = .next { s with out := s.out ++ [s.cause.setWidth 8] }) ∧
    (w ≠ 0x4000 → takeWord w s = .next s)

/-- R155: no word changes `CAUSE` in a halted block, and no step but a reset does: the first fault since reset is the one
named, and only reset leads out. -/
def Obligations.OnlyResetChangesTheCauseOfAHaltedBlock : Prop :=
  (∀ (s t : State) (w : Word), s.cause ≠ 0 → takeWord w s = .next t → t.cause = s.cause) ∧
  ∀ s t : State, s.cause ≠ 0 → step s = .next t → s.host.head? ≠ some .reset → t.cause = s.cause

/-- R150: no command but SK.ENC raises a fault, and SK.ENC only code 2, exactly when `KLEN` is not 32; a word raises code 1
exactly when it is illegal, and code 2 exactly when it is SK.ENC with `KLEN` other than 32; nothing writes code 3. -/
def Obligations.FaultsHaveTheirCausesOnly : Prop :=
  (∀ (i : Instr) (s t : State), s.cause = 0 → exec i s = .next t →
    (t.cause ≠ 0 ↔ i = .skEnc ∧ s.klen ≠ 32) ∧ (t.cause ≠ 0 → t.cause = 2)) ∧
  (∀ (w : Word) (s t : State), s.cause = 0 → takeWord w s = .next t →
    (t.cause = 1 ↔ ∃ why, decode w = .illegal why) ∧
    (t.cause = 2 ↔ decode w = .command .skEnc ∧ s.klen ≠ 32)) ∧
  (∀ s t : State, s.cause ≠ 3 → step s = .next t → t.cause ≠ 3)

/-- R156, R29: `FAULT` is 1 exactly while `CAUSE != 0`; `STATUS` bits 7:2 read 0 and, in a state the block can be in, it
shows 0x00, 0x01 or 0x02 only. -/
def Obligations.StatusAndFaultFollowCause : Prop :=
  (∀ s : State, s.faultOutput = true ↔ s.cause ≠ 0) ∧
  (∀ s : State, s.statusByte = s.cause.setWidth 8 ∧ ∀ j, 2 ≤ j → s.statusByte.getLsbD j = false) ∧
  (∀ s : State, s.Inv → s.statusByte = 0x00 ∨ s.statusByte = 0x01 ∨ s.statusByte = 0x02)

/-! ### Invariants and whole-machine rules -/

/-- R33: the invariant holds at reset. -/
def Obligations.ResetStateMeetsTheInvariant : Prop := State.reset.Inv

/-- R24, R26, R28, R25: every step keeps the invariant: legal pending bits, a legal key count with every byte that has
meaning written, the key buffer in canonical form, a legal cause, no byte delivered before it was emitted. -/
def Obligations.EveryStepKeepsTheInvariant : Prop := ∀ s t : State, s.Inv → step s = .next t → t.Inv

/-- R30: `OUT` only grows at its end; nothing but a reset removes a byte. -/
def Obligations.OutputOnlyGrows : Prop :=
  (∀ (i : Instr) (s t : State), exec i s = .next t → s.out <+: t.out) ∧
  ∀ s t : State, step s = .next t → s.host.head? ≠ some .reset → s.out <+: t.out

/-- R45: how many bytes each command emits. -/
def Obligations.EmittedByteCounts : Prop :=
  ∀ (i : Instr) (s : State), s.cause = 0 → s.PendingLegal →
    ∃ t, exec i s = .next t ∧ t.out.length = s.out.length +
      match i with
      | .crcRead => 2
      | .statRead => 1
      | .skEnc => if s.klen = 32 then 56 else 0
      | .b32Byte _ => if s.nb = 0 ∨ s.nb = 1 then 1 else 2
      | .b32Final => if s.nb = 0 then 0 else 1
      | .b32Crc => if s.nb.toNat ≤ 3 then 3 else 4
      | .crcInit | .crcByte _ | .b32Init | .keyClr | .keyPush _ => 0

/-- R30, R16: a command's effect and the bytes it emits depend neither on what is already in `OUT` nor on the host's
pace (the port events to come, the bytes taken, the earlier runs). -/
def Obligations.CommandsReadNeitherOutputNorPorts : Prop :=
  ∀ (i : Instr) (s : State), ∃ (t : State) (emitted : List Byte), t.out = s.out ++ emitted ∧
    ∀ (o : List Byte) (h : List PortEvent) (n : Nat) (p : List (List Byte)),
      exec i { s with out := o, host := h, taken := n, pastRuns := p } =
        .next { t with out := o ++ emitted, host := h, taken := n, pastRuns := p }

/-- R34: what SK.ENC emits depends on `KEYBUF`, `KLEN` and `CAUSE` only. -/
def Obligations.SkEncReadsTheKeyOnly : Prop :=
  ∀ (kb : Memory) (n : BitVec 6) (c : BitVec 2), ∃ emitted : List Byte,
    ∀ s : State, s.keybuf = kb → s.klen = n → s.cause = c →
      ∃ t, exec .skEnc s = .next t ∧ t.out = s.out ++ emitted

/-- R25: no step lets a byte of `KEYBUF` at an index of `KLEN` or above be observed: two states that differ only there
step to states that again differ only there. So no result rests on what an unwritten byte reads as (log entry 1). -/
def Obligations.StaleKeyBytesAreNeverObserved : Prop :=
  ∀ (s t : State) (m : Memory), Memory.agreeBelow s.klen.toNat s.keybuf m → step s = .next t →
    ∃ m', step { s with keybuf := m } = .next { t with keybuf := m' } ∧ Memory.agreeBelow t.klen.toNat t.keybuf m'

/-- R127, R152: SK.ENC emits all 56 characters or nothing, and nothing exactly when the block is halted or faults. -/
def Obligations.SkEncIsAllOrNothing : Prop :=
  ∀ s t : State, exec .skEnc s = .next t →
    (s.cause = 0 ∧ s.klen = 32 ∧ t.cause = 0 ∧ ∃ chars : List Byte, chars.length = 56 ∧ t.out = s.out ++ chars) ∨
    ((s.cause ≠ 0 ∨ s.klen ≠ 32) ∧ t.cause ≠ 0 ∧ t.out = s.out)

/-! ### Frames -/

/-- 10_state section 9: the CRC commands leave everything but `CRC` (CRC.READ: but `OUT`) as it was, every byte of the
key buffer with it. -/
def Obligations.CrcCommandsFrame : Prop :=
  ∀ (i : Instr) (s t : State), (i = .crcInit ∨ (∃ b, i = .crcByte b) ∨ i = .crcRead) → exec i s = .next t →
    t.acc = s.acc ∧ t.nb = s.nb ∧ t.klen = s.klen ∧ t.cause = s.cause ∧ (∀ a, t.memRead a = s.memRead a) ∧
    (∀ a, t.keybuf.lookup a = s.keybuf.lookup a) ∧ t.host = s.host ∧ t.taken = s.taken ∧ t.pastRuns = s.pastRuns ∧
    (i ≠ .crcRead → t.out = s.out) ∧ (i = .crcRead → t.crc = s.crc)

/-- 10_state section 9: the Base32 commands leave everything but `ACC`, `NB` and `OUT` as it was; B32.INIT leaves `OUT`
too. -/
def Obligations.Base32CommandsFrame : Prop :=
  ∀ (i : Instr) (s t : State), (i = .b32Init ∨ (∃ b, i = .b32Byte b) ∨ i = .b32Final ∨ i = .b32Crc) →
    exec i s = .next t →
    t.crc = s.crc ∧ t.klen = s.klen ∧ t.cause = s.cause ∧ (∀ a, t.memRead a = s.memRead a) ∧
    (∀ a, t.keybuf.lookup a = s.keybuf.lookup a) ∧ t.host = s.host ∧ t.taken = s.taken ∧ t.pastRuns = s.pastRuns ∧
    (i = .b32Init → t.out = s.out)

/-- 10_state section 9: KEY.CLR and KEY.PUSH leave everything but `KLEN` and, for a push in a running block with
`KLEN < 32`, the one byte at index `KLEN` as it was. -/
def Obligations.KeyCommandsFrame : Prop :=
  ∀ (i : Instr) (s t : State), (i = .keyClr ∨ ∃ b, i = .keyPush b) → exec i s = .next t →
    t.crc = s.crc ∧ t.acc = s.acc ∧ t.nb = s.nb ∧ t.cause = s.cause ∧ t.out = s.out ∧ t.host = s.host ∧
    t.taken = s.taken ∧ t.pastRuns = s.pastRuns ∧
    (∀ a, (i = .keyClr ∨ s.cause ≠ 0 ∨ 32 ≤ s.klen.toNat ∨ a ≠ s.klen.toNat) →
      t.memRead a = s.memRead a ∧ t.keybuf.lookup a = s.keybuf.lookup a)

/-- 10_state section 9: SK.ENC leaves every byte of the key buffer as it was (R25); on a fault and in a halted block it
leaves every register but `CAUSE`. STAT.READ leaves everything but `OUT`. -/
def Obligations.SkEncAndStatReadFrame : Prop :=
  (∀ s t : State, exec .skEnc s = .next t →
    (∀ a, t.memRead a = s.memRead a ∧ t.keybuf.lookup a = s.keybuf.lookup a) ∧ t.host = s.host ∧
    t.taken = s.taken ∧ t.pastRuns = s.pastRuns ∧
    (s.cause ≠ 0 ∨ s.klen ≠ 32 →
      t.crc = s.crc ∧ t.acc = s.acc ∧ t.nb = s.nb ∧ t.klen = s.klen ∧ t.out = s.out) ∧
    (s.cause ≠ 0 ∨ s.klen = 32 → t.cause = s.cause)) ∧
  ∀ s t : State, exec .statRead s = .next t →
    t.crc = s.crc ∧ t.acc = s.acc ∧ t.nb = s.nb ∧ t.klen = s.klen ∧ t.cause = s.cause ∧
    (∀ a, t.memRead a = s.memRead a ∧ t.keybuf.lookup a = s.keybuf.lookup a) ∧ t.host = s.host ∧ t.taken = s.taken ∧
    t.pastRuns = s.pastRuns

/-! ### The CRC function -/

/-- R86, R87, R88: the bit-serial form, its flip-flop equations, the byte-parallel XOR equations, the shift-and-XOR form
and the table form are the update function of R81, for every register value and byte; the table's entries are the
update of 0x0000. -/
def Obligations.CrcStepFormsAgree : Prop :=
  (∀ (c : BitVec 16) (d : Bool), crcBitFlipFlops c d = crcBit c d) ∧
  ∀ (c : BitVec 16) (b : Byte),
    crcStepSerial c b = crcStep c b ∧ crcStepParallel c b = crcStep c b ∧ crcStepShiftXor c b = crcStep c b ∧
    crcStepTable c b = crcStep c b ∧ crcTable.length = 256 ∧ crcTable.getD b.toNat 0 = crcStep 0x0000 b

/-- R89, the laws: linearity over XOR, zero prefix, append-and-vanish high byte first (and not low byte first),
composition. -/
def Obligations.CrcLaws : Prop :=
  (∀ (c1 c2 : BitVec 16) (b1 b2 : Byte), crcStep (c1 ^^^ c2) (b1 ^^^ b2) = crcStep c1 b1 ^^^ crcStep c2 b2) ∧
  (∀ (c : BitVec 16) (b : Byte), crcStep c b = crcStep (c ^^^ (b.setWidth 16 <<< 8)) 0x00) ∧
  (∀ z m : List Byte, (∀ x ∈ z, x = 0x00) → crc16 (z ++ m) = crc16 m) ∧
  (∀ m : List Byte, crc16 (m ++ [(crc16 m).extractLsb' 8 8, (crc16 m).extractLsb' 0 8]) = 0x0000) ∧
  (∃ m : List Byte, crc16 (m ++ [(crc16 m).extractLsb' 0 8, (crc16 m).extractLsb' 8 8]) ≠ 0x0000) ∧
  (∀ m1 m2 : List Byte, crc16 (m1 ++ m2) = m2.foldl crcStep (crc16 m1))

/-- R80: after CRC.INIT and CRC.BYTE for the bytes of any message, `CRC` holds the remainder of `M(x) * x^16` divided by
`x^16 + x^12 + x^5 + 1` over GF(2), bit `i` of the register being the coefficient of `x^i`, and `M` the message's bits,
first byte and bit 7 first, highest power first. This is the fresh message from CRC.INIT; that other commands mixed in
change nothing of it is `Obligations.CrcHoldsTheBytesGiven`. -/
def Obligations.CrcIsThePolynomialRemainder : Prop :=
  ∀ (m : List Byte) (s : State), s.cause = 0 →
    ∃ t, execAll (.crcInit :: m.map Instr.crcByte) s = .next t ∧
      (∑ i ∈ Finset.range 16, if t.crc.getLsbD i then (Polynomial.X : Polynomial (ZMod 2)) ^ i else 0) =
        (((messageBits m).foldl (fun p d => p * Polynomial.X + (if d then 1 else 0)) 0) * Polynomial.X ^ 16) %ₘ
          (Polynomial.X ^ 16 + Polynomial.X ^ 12 + Polynomial.X ^ 5 + 1)

/-- R21, R174: whatever other commands but CRC.INIT and SK.ENC are mixed in, `CRC` is the update of its value over the
bytes given by CRC.BYTE, in order; from a CRC.INIT it is `crc16` of them. -/
def Obligations.CrcHoldsTheBytesGiven : Prop :=
  ∀ (is : List Instr) (s : State), s.cause = 0 → (∀ i ∈ is, i ≠ .crcInit ∧ i ≠ .skEnc) →
    (∃ t, execAll is s = .next t ∧ t.cause = 0 ∧ t.crc = (crcOperands is).foldl crcStep s.crc) ∧
    (∃ t, execAll (.crcInit :: is) s = .next t ∧ t.cause = 0 ∧ t.crc = crc16 (crcOperands is))

/-! ### The Base32 function -/

/-- R102, R103: the byte step and the final step by cases on `NB`, each group written as bits of `ACC` and of the byte,
the short last group with zero bits below. -/
def Obligations.B32StepsByCases : Prop :=
  (∀ a : BitVec 4, b32Flush a 0 = [] ∧ b32Flush a 1 = [alpha (a.extractLsb' 0 1 ++ 0#4)] ∧
    b32Flush a 2 = [alpha (a.extractLsb' 0 2 ++ 0#3)] ∧ b32Flush a 3 = [alpha (a.extractLsb' 0 3 ++ 0#2)] ∧
    b32Flush a 4 = [alpha (a ++ 0#1)]) ∧
  ∀ (a : BitVec 4) (b : Byte),
    b32Absorb a 0 b = ⟨(b.extractLsb' 0 3).setWidth 4, 3, [alpha (b.extractLsb' 3 5)]⟩ ∧
    b32Absorb a 1 b = ⟨b.extractLsb' 0 4, 4, [alpha (a.extractLsb' 0 1 ++ b.extractLsb' 4 4)]⟩ ∧
    b32Absorb a 2 b = ⟨0, 0, [alpha (a.extractLsb' 0 2 ++ b.extractLsb' 5 3), alpha (b.extractLsb' 0 5)]⟩ ∧
    b32Absorb a 3 b =
      ⟨(b.extractLsb' 0 1).setWidth 4, 1, [alpha (a.extractLsb' 0 3 ++ b.extractLsb' 6 2), alpha (b.extractLsb' 1 5)]⟩ ∧
    b32Absorb a 4 b =
      ⟨(b.extractLsb' 0 2).setWidth 4, 2, [alpha (a ++ b.extractLsb' 7 1), alpha (b.extractLsb' 2 5)]⟩

/-- R100: `b32` of a message is the alphabet's characters of the message's bits cut in fives from the front, a short last
group filled with zero bits; R104 and R110 law 2: `ceil(8 n / 5)` characters. -/
def Obligations.B32IsTheGroupsOfFive : Prop :=
  ∀ m : List Byte, b32 m = b32ByGroups m ∧ (b32 m).length = (8 * m.length + 4) / 5 ∧
    (b32 m).length = 8 * (m.length / 5) + [0, 2, 4, 5, 7].getD (m.length % 5) 0

/-- R175: B32.INIT, B32.BYTE for each byte, B32.FINAL, in any running block: emits `b32` of the bytes and leaves the unit
cleared, everything else as it was. -/
def Obligations.B32MessageEmitsItsText : Prop :=
  ∀ (m : List Byte) (s : State), s.cause = 0 →
    execAll (expand (.b32Msg m)) s = .next { s with acc := 0, nb := 0, out := s.out ++ b32 m }

/-- R23, R110 law 3: after B32.INIT and `k` bytes, `NB = (8 * k) mod 5`. -/
def Obligations.PendingCountCycle : Prop :=
  ∀ (m : List Byte) (s : State), s.cause = 0 →
    ∃ t, execAll (.b32Init :: m.map Instr.b32Byte) s = .next t ∧ t.nb.toNat = (8 * m.length) % 5

/-- R110 laws 4 and 5: texts of whole 5-byte blocks concatenate; the first `floor(8 * len / 5)` characters are those of
the front part. -/
def Obligations.B32BlocksAndFronts : Prop :=
  (∀ m1 m2 : List Byte, m1.length % 5 = 0 → b32 (m1 ++ m2) = b32 m1 ++ b32 m2) ∧
  (∀ m1 m2 : List Byte, (b32 (m1 ++ m2)).take (8 * m1.length / 5) = (b32 m1).take (8 * m1.length / 5))

/-- R110 law 6: `b32` is injective on messages. -/
def Obligations.B32IsInjective : Prop := ∀ m1 m2 : List Byte, b32 m1 = b32 m2 → m1 = m2

/-- R110 law 1, R101, R49: every character of a text is one of the 32 codes, given by the arithmetic of R101; none is the
pad, a lower-case letter or 0, 1, 8, 9; bit 7 is 0. -/
def Obligations.B32AlphabetOnly : Prop :=
  (∀ g : BitVec 5, alpha g = if g.toNat ≤ 25 then BitVec.ofNat 8 (0x41 + g.toNat) else BitVec.ofNat 8 (0x18 + g.toNat)) ∧
  ∀ (m : List Byte), ∀ c ∈ b32 m, (∃ g, c = alpha g) ∧ c ≠ padChar ∧ c.getLsbD 7 = false ∧
    ¬ (0x61 ≤ c.toNat ∧ c.toNat ≤ 0x7A) ∧ c ∉ ([0x30, 0x31, 0x38, 0x39] : List Byte)

/-- R109: stripping the padded form gives the unpadded text, for every message; the padded length is a multiple of
8. -/
def Obligations.StripOfPaddedIsUnpadded : Prop :=
  ∀ m : List Byte, stripPads (b32Padded m) = b32 m ∧ (b32Padded m).length = 8 * ((m.length + 4) / 5)

/-! ### The frame -/

/-- R125 items 1 to 4: 56 characters, the first `S`, the second the symbol of `0b000` and the key's two top bits, all of
the alphabet. -/
def Obligations.AddressShape : Prop :=
  ∀ k : List Byte, k.length = 32 →
    (encodedAddress k).length = 56 ∧ (encodedAddress k)[0]? = some 0x53 ∧
    (∀ k0, k.head? = some k0 → (encodedAddress k)[1]? = some (0x41 + (k0.extractLsb' 6 2).setWidth 8)) ∧
    ∀ c ∈ encodedAddress k, c ∈ alphabet

/-- R125 item 5, 90 C4: of 33 payload bytes and two checksum bytes, characters 0 to 51 depend on the payload alone,
characters 53 to 55 on the checksum alone, character 52 on the last four payload bits and the first checksum bit. -/
def Obligations.WhichCharactersCarryTheChecksum : Prop :=
  ∀ (p q : List Byte) (x y x' y' : Byte), p.length = 33 → q.length = 33 →
    (b32 (p ++ [x, y])).take 52 = (b32 (p ++ [x', y'])).take 52 ∧
    (b32 (p ++ [x, y])).drop 53 = (b32 (q ++ [x, y])).drop 53 ∧
    ∀ u v : Byte, p.getLast? = some u → q.getLast? = some v → u.extractLsb' 0 4 = v.extractLsb' 0 4 →
      x.getLsbD 7 = x'.getLsbD 7 → (b32 (p ++ [x, y]))[52]? = (b32 (q ++ [x', y']))[52]?

/-- R125 item 7: different keys give different addresses. -/
def Obligations.AddressIsInjective : Prop :=
  ∀ k k' : List Byte, k.length = 32 → k'.length = 32 → encodedAddress k = encodedAddress k' → k = k'

/-- R26, R122: loading `m` into any running block: `KLEN` is the number of bytes, saturated at 33, and the first 32 bytes
stand in `KEYBUF` in push order; every other byte of `KEYBUF` and everything else is as it was. -/
def Obligations.KeyLoadFillsTheBuffer : Prop :=
  ∀ (m : List Byte) (s : State), s.cause = 0 →
    ∃ mem : Memory, execAll (expand (.keyLoad m)) s =
        .next { s with keybuf := mem, klen := BitVec.ofNat 6 (min m.length 33) } ∧
      (∀ j < 32, j < m.length → mem.lookup j = m[j]?) ∧
      ∀ j, m.length ≤ j ∨ 32 ≤ j → mem.lookup j = s.keybuf.lookup j

/-- R126: streaming the payload through both units and SK.ENC on the loaded key give the same text, `CRC`, `ACC` and
`NB`, for every key, in any running block. -/
def Obligations.StreamingGivesTheSameAddress : Prop :=
  ∀ (k : List Byte) (s : State), s.cause = 0 → k.length = 32 →
    execAll ([.crcInit, .b32Init] ++ ((0x90 : Byte) :: k).flatMap (fun b => expand (.bothByte b)) ++
        [.b32Crc, .b32Final]) s =
      .next { s with crc := crc16 (0x90 :: k), acc := 0, nb := 0, out := s.out ++ encodedAddress k } ∧
    ∃ t, execAll (expand (.skEncode k)) s = .next t ∧ t.cause = 0 ∧ t.crc = crc16 (0x90 :: k) ∧ t.acc = 0 ∧ t.nb = 0 ∧
      t.klen = 0 ∧ t.out = s.out ++ encodedAddress k

/-! ### The host front end -/

/-- R134, R133, R163: for a text that is a 32-byte key in hex, the words the host sends run on any running block and append
the key's address to `OUT`, with no fault; and by both ways of R133 the whole session answers that address, the next 56
bytes of `OUT`, all of them taken. The host's later events are log entry 2's; that the host takes what is left of `OUT`
and resets a halted block before it starts is log entry 16's. -/
def Obligations.HostEncodeEmitsTheAddress : Prop :=
  (∀ (text : List Char) (k : List Byte) (s : State) (later : List PortEvent),
    hostRawKey text = .ok k → s.cause = 0 →
    ∃ ws t, hostEncode text = .ok ws ∧ ws.length = 34 ∧
      Host.Core.run Sys2Proof.core ws.length { s with host := ws ++ later } = .next t ∧
      t.out = s.out ++ encodedAddress k ∧ t.cause = 0 ∧ t.host = later) ∧
  ∀ (text : List Char) (k : List Byte) (readsStatus : Bool) (s : State),
    hostRawKey text = .ok k → s.taken ≤ s.out.length →
    ∃ u : State, encodeChecking readsStatus text s = .next ⟨.ok (encodedAddress k), none, u⟩ ∧
      encodePushing readsStatus text s = .next ⟨.ok (encodedAddress k), none, u⟩ ∧
      u.out = (if s.cause = 0 then s.out else []) ++ encodedAddress k ∧ u.taken = u.out.length ∧
      u.cause = 0 ∧ u.host = s.host

/-- R133, R134, R163, R152: valid hex of a wrong length. A host that checks reports the length error and sends nothing. The
words of a host that pushes whatever it decoded leave a running block with `CAUSE = 2` and no output; the whole session
then reports the length error, has read the status byte 0x02 if it wanted it, and leaves the block reset. (Log entries 2
and 16 as above.) -/
def Obligations.PushingAWrongLengthFaults : Prop :=
  (∀ (text : List Char) (k : List Byte) (s : State) (later : List PortEvent),
    parseHex (strip0x text) = .ok k → k.length ≠ 32 → s.cause = 0 →
    hostEncode text = .error .invalidLengthError ∧
    ∃ ws t, hostPushAll text = .ok ws ∧
      Host.Core.run Sys2Proof.core ws.length { s with host := ws ++ later } = .next t ∧
      t.out = s.out ∧ t.cause = 2 ∧ t.host = later) ∧
  ∀ (text : List Char) (k : List Byte) (readsStatus : Bool) (s : State),
    parseHex (strip0x text) = .ok k → k.length ≠ 32 → s.taken ≤ s.out.length →
    encodeChecking readsStatus text s = .next ⟨.error .invalidLengthError, none, s⟩ ∧
    ∃ u : State, encodePushing readsStatus text s =
        .next ⟨.error .invalidLengthError, if readsStatus then some 0x02 else none, u⟩ ∧
      u.crc = 0x0000 ∧ u.acc = 0 ∧ u.nb = 0 ∧ u.klen = 0 ∧ u.cause = 0 ∧ u.out = [] ∧ u.host = s.host

/-- R131, R132, R133: odd length and a non-hex character are decoding errors, in that order before the length test; the
empty string and `0x` alone are length errors (90 C2); a leading `0x` changes nothing; `0X` is not stripped; on a decoding error
no command is sent, by either way of R133 (R135). -/
def Obligations.HostErrorsInOrder : Prop :=
  (∀ text : List Char, (strip0x text).length % 2 = 1 → hostRawKey text = .error .decodingError) ∧
  (∀ text : List Char, (∃ c ∈ strip0x text, hexValue c = none) → hostRawKey text = .error .decodingError) ∧
  (∀ (text : List Char) (k : List Byte), parseHex (strip0x text) = .ok k → k.length ≠ 32 →
    hostRawKey text = .error .invalidLengthError) ∧
  hostRawKey [] = .error .invalidLengthError ∧ hostRawKey ['0', 'x'] = .error .invalidLengthError ∧
  (∀ (h : List Char) (k : List Byte), parseHex h = .ok k → hostRawKey ('0' :: 'x' :: h) = hostRawKey h) ∧
  (∀ rest : List Char, hostRawKey ('0' :: 'X' :: rest) = .error .decodingError) ∧
  ∀ (text : List Char) (readsStatus : Bool) (s : State), hostRawKey text = .error .decodingError →
    encodeChecking readsStatus text s = .next ⟨.error .decodingError, none, s⟩ ∧
    encodePushing readsStatus text s = .next ⟨.error .decodingError, none, s⟩
end

