-- ==== Sys2Proof/Laws/State.lean ====
section
/-! SUPPORT. One lemma per field per named update of the state, true by definition, so that no later proof unfolds a
record update. -/

namespace Sys2Proof.Machine

variable (s : State)

/-! ### `setCrc` -/

@[simp] theorem State.setCrc_crc (v : BitVec 16) : (s.setCrc v).crc = v := rfl
@[simp] theorem State.setCrc_acc (v : BitVec 16) : (s.setCrc v).acc = s.acc := rfl
@[simp] theorem State.setCrc_nb (v : BitVec 16) : (s.setCrc v).nb = s.nb := rfl
@[simp] theorem State.setCrc_keybuf (v : BitVec 16) : (s.setCrc v).keybuf = s.keybuf := rfl
@[simp] theorem State.setCrc_klen (v : BitVec 16) : (s.setCrc v).klen = s.klen := rfl
@[simp] theorem State.setCrc_cause (v : BitVec 16) : (s.setCrc v).cause = s.cause := rfl
@[simp] theorem State.setCrc_out (v : BitVec 16) : (s.setCrc v).out = s.out := rfl
@[simp] theorem State.setCrc_host (v : BitVec 16) : (s.setCrc v).host = s.host := rfl
@[simp] theorem State.setCrc_taken (v : BitVec 16) : (s.setCrc v).taken = s.taken := rfl
@[simp] theorem State.setCrc_pastRuns (v : BitVec 16) : (s.setCrc v).pastRuns = s.pastRuns := rfl

/-! ### `setPending` -/

@[simp] theorem State.setPending_crc (a : BitVec 4) (n : BitVec 3) : (s.setPending a n).crc = s.crc := rfl
@[simp] theorem State.setPending_acc (a : BitVec 4) (n : BitVec 3) : (s.setPending a n).acc = a := rfl
@[simp] theorem State.setPending_nb (a : BitVec 4) (n : BitVec 3) : (s.setPending a n).nb = n := rfl
@[simp] theorem State.setPending_keybuf (a : BitVec 4) (n : BitVec 3) : (s.setPending a n).keybuf = s.keybuf := rfl
@[simp] theorem State.setPending_klen (a : BitVec 4) (n : BitVec 3) : (s.setPending a n).klen = s.klen := rfl
@[simp] theorem State.setPending_cause (a : BitVec 4) (n : BitVec 3) : (s.setPending a n).cause = s.cause := rfl
@[simp] theorem State.setPending_out (a : BitVec 4) (n : BitVec 3) : (s.setPending a n).out = s.out := rfl
@[simp] theorem State.setPending_host (a : BitVec 4) (n : BitVec 3) : (s.setPending a n).host = s.host := rfl
@[simp] theorem State.setPending_taken (a : BitVec 4) (n : BitVec 3) : (s.setPending a n).taken = s.taken := rfl
@[simp] theorem State.setPending_pastRuns (a : BitVec 4) (n : BitVec 3) :
    (s.setPending a n).pastRuns = s.pastRuns := rfl

/-! ### `setKlen` -/

@[simp] theorem State.setKlen_crc (v : BitVec 6) : (s.setKlen v).crc = s.crc := rfl
@[simp] theorem State.setKlen_acc (v : BitVec 6) : (s.setKlen v).acc = s.acc := rfl
@[simp] theorem State.setKlen_nb (v : BitVec 6) : (s.setKlen v).nb = s.nb := rfl
@[simp] theorem State.setKlen_keybuf (v : BitVec 6) : (s.setKlen v).keybuf = s.keybuf := rfl
@[simp] theorem State.setKlen_klen (v : BitVec 6) : (s.setKlen v).klen = v := rfl
@[simp] theorem State.setKlen_cause (v : BitVec 6) : (s.setKlen v).cause = s.cause := rfl
@[simp] theorem State.setKlen_out (v : BitVec 6) : (s.setKlen v).out = s.out := rfl
@[simp] theorem State.setKlen_host (v : BitVec 6) : (s.setKlen v).host = s.host := rfl
@[simp] theorem State.setKlen_taken (v : BitVec 6) : (s.setKlen v).taken = s.taken := rfl
@[simp] theorem State.setKlen_pastRuns (v : BitVec 6) : (s.setKlen v).pastRuns = s.pastRuns := rfl

/-! ### `setCause` -/

@[simp] theorem State.setCause_crc (v : BitVec 2) : (s.setCause v).crc = s.crc := rfl
@[simp] theorem State.setCause_acc (v : BitVec 2) : (s.setCause v).acc = s.acc := rfl
@[simp] theorem State.setCause_nb (v : BitVec 2) : (s.setCause v).nb = s.nb := rfl
@[simp] theorem State.setCause_keybuf (v : BitVec 2) : (s.setCause v).keybuf = s.keybuf := rfl
@[simp] theorem State.setCause_klen (v : BitVec 2) : (s.setCause v).klen = s.klen := rfl
@[simp] theorem State.setCause_cause (v : BitVec 2) : (s.setCause v).cause = v := rfl
@[simp] theorem State.setCause_out (v : BitVec 2) : (s.setCause v).out = s.out := rfl
@[simp] theorem State.setCause_host (v : BitVec 2) : (s.setCause v).host = s.host := rfl
@[simp] theorem State.setCause_taken (v : BitVec 2) : (s.setCause v).taken = s.taken := rfl
@[simp] theorem State.setCause_pastRuns (v : BitVec 2) : (s.setCause v).pastRuns = s.pastRuns := rfl

/-! ### `setHost` -/

@[simp] theorem State.setHost_crc (es : List PortEvent) : (s.setHost es).crc = s.crc := rfl
@[simp] theorem State.setHost_acc (es : List PortEvent) : (s.setHost es).acc = s.acc := rfl
@[simp] theorem State.setHost_nb (es : List PortEvent) : (s.setHost es).nb = s.nb := rfl
@[simp] theorem State.setHost_keybuf (es : List PortEvent) : (s.setHost es).keybuf = s.keybuf := rfl
@[simp] theorem State.setHost_klen (es : List PortEvent) : (s.setHost es).klen = s.klen := rfl
@[simp] theorem State.setHost_cause (es : List PortEvent) : (s.setHost es).cause = s.cause := rfl
@[simp] theorem State.setHost_out (es : List PortEvent) : (s.setHost es).out = s.out := rfl
@[simp] theorem State.setHost_host (es : List PortEvent) : (s.setHost es).host = es := rfl
@[simp] theorem State.setHost_taken (es : List PortEvent) : (s.setHost es).taken = s.taken := rfl
@[simp] theorem State.setHost_pastRuns (es : List PortEvent) : (s.setHost es).pastRuns = s.pastRuns := rfl

/-! ### `memWrite` -/

@[simp] theorem State.memWrite_crc (i : Nat) (v : Byte) : (s.memWrite i v).crc = s.crc := rfl
@[simp] theorem State.memWrite_acc (i : Nat) (v : Byte) : (s.memWrite i v).acc = s.acc := rfl
@[simp] theorem State.memWrite_nb (i : Nat) (v : Byte) : (s.memWrite i v).nb = s.nb := rfl
@[simp] theorem State.memWrite_keybuf (i : Nat) (v : Byte) : (s.memWrite i v).keybuf = s.keybuf.write i v := rfl
@[simp] theorem State.memWrite_klen (i : Nat) (v : Byte) : (s.memWrite i v).klen = s.klen := rfl
@[simp] theorem State.memWrite_cause (i : Nat) (v : Byte) : (s.memWrite i v).cause = s.cause := rfl
@[simp] theorem State.memWrite_out (i : Nat) (v : Byte) : (s.memWrite i v).out = s.out := rfl
@[simp] theorem State.memWrite_host (i : Nat) (v : Byte) : (s.memWrite i v).host = s.host := rfl
@[simp] theorem State.memWrite_taken (i : Nat) (v : Byte) : (s.memWrite i v).taken = s.taken := rfl
@[simp] theorem State.memWrite_pastRuns (i : Nat) (v : Byte) : (s.memWrite i v).pastRuns = s.pastRuns := rfl

/-! ### `emitAll` -/

@[simp] theorem State.emitAll_crc (vs : List Byte) : (s.emitAll vs).crc = s.crc := rfl
@[simp] theorem State.emitAll_acc (vs : List Byte) : (s.emitAll vs).acc = s.acc := rfl
@[simp] theorem State.emitAll_nb (vs : List Byte) : (s.emitAll vs).nb = s.nb := rfl
@[simp] theorem State.emitAll_keybuf (vs : List Byte) : (s.emitAll vs).keybuf = s.keybuf := rfl
@[simp] theorem State.emitAll_klen (vs : List Byte) : (s.emitAll vs).klen = s.klen := rfl
@[simp] theorem State.emitAll_cause (vs : List Byte) : (s.emitAll vs).cause = s.cause := rfl
@[simp] theorem State.emitAll_out (vs : List Byte) : (s.emitAll vs).out = s.out ++ vs := rfl
@[simp] theorem State.emitAll_host (vs : List Byte) : (s.emitAll vs).host = s.host := rfl
@[simp] theorem State.emitAll_taken (vs : List Byte) : (s.emitAll vs).taken = s.taken := rfl
@[simp] theorem State.emitAll_pastRuns (vs : List Byte) : (s.emitAll vs).pastRuns = s.pastRuns := rfl

/-! ### `takeByte` -/

@[simp] theorem State.takeByte_crc : s.takeByte.crc = s.crc := rfl
@[simp] theorem State.takeByte_acc : s.takeByte.acc = s.acc := rfl
@[simp] theorem State.takeByte_nb : s.takeByte.nb = s.nb := rfl
@[simp] theorem State.takeByte_keybuf : s.takeByte.keybuf = s.keybuf := rfl
@[simp] theorem State.takeByte_klen : s.takeByte.klen = s.klen := rfl
@[simp] theorem State.takeByte_cause : s.takeByte.cause = s.cause := rfl
@[simp] theorem State.takeByte_out : s.takeByte.out = s.out := rfl
@[simp] theorem State.takeByte_host : s.takeByte.host = s.host := rfl
@[simp] theorem State.takeByte_taken :
    s.takeByte.taken = if s.taken < s.out.length then s.taken + 1 else s.taken := rfl
@[simp] theorem State.takeByte_pastRuns : s.takeByte.pastRuns = s.pastRuns := rfl

/-! ### `raise` -/

@[simp] theorem State.raise_crc (c : FaultCause) : (s.raise c).crc = s.crc := rfl
@[simp] theorem State.raise_acc (c : FaultCause) : (s.raise c).acc = s.acc := rfl
@[simp] theorem State.raise_nb (c : FaultCause) : (s.raise c).nb = s.nb := rfl
@[simp] theorem State.raise_keybuf (c : FaultCause) : (s.raise c).keybuf = s.keybuf := rfl
@[simp] theorem State.raise_klen (c : FaultCause) : (s.raise c).klen = s.klen := rfl
@[simp] theorem State.raise_cause (c : FaultCause) : (s.raise c).cause = c.code := rfl
@[simp] theorem State.raise_out (c : FaultCause) : (s.raise c).out = s.out := rfl
@[simp] theorem State.raise_host (c : FaultCause) : (s.raise c).host = s.host := rfl
@[simp] theorem State.raise_taken (c : FaultCause) : (s.raise c).taken = s.taken := rfl
@[simp] theorem State.raise_pastRuns (c : FaultCause) : (s.raise c).pastRuns = s.pastRuns := rfl

/-! ### `resetBlock` -/

@[simp] theorem State.resetBlock_crc (later : List PortEvent) : (s.resetBlock later).crc = 0 := rfl
@[simp] theorem State.resetBlock_acc (later : List PortEvent) : (s.resetBlock later).acc = 0 := rfl
@[simp] theorem State.resetBlock_nb (later : List PortEvent) : (s.resetBlock later).nb = 0 := rfl
@[simp] theorem State.resetBlock_keybuf (later : List PortEvent) : (s.resetBlock later).keybuf = [] := rfl
@[simp] theorem State.resetBlock_klen (later : List PortEvent) : (s.resetBlock later).klen = 0 := rfl
@[simp] theorem State.resetBlock_cause (later : List PortEvent) : (s.resetBlock later).cause = 0 := rfl
@[simp] theorem State.resetBlock_out (later : List PortEvent) : (s.resetBlock later).out = [] := rfl
@[simp] theorem State.resetBlock_host (later : List PortEvent) : (s.resetBlock later).host = later := rfl
@[simp] theorem State.resetBlock_taken (later : List PortEvent) : (s.resetBlock later).taken = 0 := rfl
@[simp] theorem State.resetBlock_pastRuns (later : List PortEvent) : (s.resetBlock later).pastRuns = s.pastRuns ++ [s.out] := rfl

end Sys2Proof.Machine
end

