-- ==== Sys2Proof/Laws/Ops.lean ====
section
/-! SUPPORT. One lemma per shared operation that says everything it can do. -/

namespace Sys2Proof.Machine

/-! ### The halted test -/

theorem ifRunning_of_running (s t : State) (h : s.cause = 0) : ifRunning s t = .next t := by
  simp [ifRunning, State.halted, h]

theorem ifRunning_of_halted (s t : State) (h : s.cause ≠ 0) : ifRunning s t = .next s := by
  have hh : s.halted = true := by simpa [State.halted] using h
  simp [ifRunning, hh]

/-- Everything the halted test can do: the effect in a running block, nothing in a halted one. -/
theorem ifRunning_cases {s t u : State} (h : ifRunning s t = .next u) :
    (s.cause = 0 ∧ u = t) ∨ (s.cause ≠ 0 ∧ u = s) := by
  by_cases hc : s.cause = 0
  · rw [ifRunning_of_running s t hc] at h
    cases h
    exact .inl ⟨hc, rfl⟩
  · rw [ifRunning_of_halted s t hc] at h
    cases h
    exact .inr ⟨hc, rfl⟩

/-! ### The key buffer -/

@[simp] theorem Memory.lookup_nil (i : Nat) : Memory.lookup [] i = none := rfl

theorem Memory.lookup_write_same (m : Memory) (i : Nat) (b : Byte) : (m.write i b).lookup i = some b := by
  induction m with
  | nil => simp [Memory.write, Memory.lookup]
  | cons cell m ih =>
    obtain ⟨a, c⟩ := cell
    by_cases h1 : i < a
    · simp [Memory.write, Memory.lookup, h1]
    by_cases h2 : i = a
    · simp [Memory.write, Memory.lookup, h2]
    · simp [Memory.write, Memory.lookup, h1, h2, Ne.symm h2, ih]

theorem Memory.lookup_write_other (m : Memory) (i j : Nat) (b : Byte) (h : j ≠ i) :
    (m.write i b).lookup j = m.lookup j := by
  induction m with
  | nil => simp [Memory.write, Memory.lookup, Ne.symm h]
  | cons cell m ih =>
    obtain ⟨a, c⟩ := cell
    by_cases h1 : i < a
    · simp [Memory.write, Memory.lookup, h1, Ne.symm h]
    by_cases h2 : i = a
    · subst h2
      simp [Memory.write, Memory.lookup, Ne.symm h]
    · by_cases h3 : a = j
      · subst h3
        simp [Memory.write, Memory.lookup, h1, h2]
      · simp [Memory.write, Memory.lookup, h1, h2, h3, ih]

theorem Memory.risingFrom_write (m : Memory) (lo i : Nat) (b : Byte) (hlo : lo ≤ i)
    (h : Memory.risingFrom lo m = true) : Memory.risingFrom lo (m.write i b) = true := by
  induction m generalizing lo with
  | nil => simp [Memory.write, Memory.risingFrom, hlo]
  | cons cell m ih =>
    obtain ⟨a, c⟩ := cell
    simp only [Memory.risingFrom, Bool.and_eq_true, decide_eq_true_eq] at h
    by_cases h1 : i < a
    · simp [Memory.write, Memory.risingFrom, h1, hlo, h.2]
    by_cases h2 : i = a
    · subst h2
      simp [Memory.write, Memory.risingFrom, h.1, h.2]
    · simp [Memory.write, Memory.risingFrom, h1, h2, h.1, ih (a + 1) (by omega) h.2]

theorem Memory.all_lt_write (m : Memory) (i : Nat) (b : Byte) (hi : i < 32)
    (h : (m.all fun cell => decide (cell.1 < 32)) = true) :
    ((m.write i b).all fun cell => decide (cell.1 < 32)) = true := by
  induction m with
  | nil => simp [Memory.write, hi]
  | cons cell m ih =>
    obtain ⟨a, c⟩ := cell
    simp only [List.all_cons, Bool.and_eq_true, decide_eq_true_eq] at h
    by_cases h1 : i < a
    · simp only [Memory.write, h1, if_true, List.all_cons, Bool.and_eq_true, decide_eq_true_eq]
      exact ⟨hi, h⟩
    by_cases h2 : i = a
    · simp only [Memory.write, h2, if_true, List.all_cons, Bool.and_eq_true, decide_eq_true_eq, lt_irrefl, if_false]
      exact h
    · simp only [Memory.write, h1, h2, if_false, List.all_cons, Bool.and_eq_true, decide_eq_true_eq]
      exact ⟨h.1, ih h.2⟩

/-- Every write inside the buffer keeps the canonical form. -/
theorem Memory.write_wf (m : Memory) (i : Nat) (b : Byte) (hi : i < 32) (h : m.wf = true) :
    (m.write i b).wf = true := by
  simp only [Memory.wf, Bool.and_eq_true] at h ⊢
  exact ⟨Memory.risingFrom_write m 0 i b (Nat.zero_le i) h.1, Memory.all_lt_write m i b hi h.2⟩

theorem State.reset_keybuf_wf : State.reset.keybuf.wf = true := rfl

@[simp] theorem State.memRead_memWrite_same (s : State) (i : Nat) (v : Byte) : (s.memWrite i v).memRead i = v := by
  simp [State.memRead, Memory.lookup_write_same]

theorem State.memRead_memWrite_other (s : State) (i j : Nat) (v : Byte) (h : j ≠ i) :
    (s.memWrite i v).memRead j = s.memRead j := by
  simp [State.memRead, Memory.lookup_write_other _ _ _ _ h]

/-- A read of the buffer looks at the buffer alone. -/
theorem State.memRead_congr {s t : State} (h : t.keybuf = s.keybuf) : t.memRead = s.memRead := by
  funext i
  simp [State.memRead, h]

/-! ### The output port -/

theorem State.takeByte_le (s : State) (h : s.taken ≤ s.out.length) : s.takeByte.taken ≤ s.takeByte.out.length := by
  simp only [State.takeByte_taken, State.takeByte_out]
  split <;> omega

/-! ### The port events -/

@[simp] theorem fetch_waiting (s : State) (h : s.host = []) : fetch s = .port s := by simp [fetch, h]

theorem fetch_reset (s : State) (later : List PortEvent) (h : s.host = .reset :: later) :
    fetch s = .port (s.resetBlock later) := by simp [fetch, h]

theorem fetch_takeByte (s : State) (later : List PortEvent) (h : s.host = .takeByte :: later) :
    fetch s = .port (s.setHost later).takeByte := by simp [fetch, h]

theorem fetch_command (s : State) (w : Word) (later : List PortEvent) (h : s.host = .command w :: later) :
    fetch s = .word w (s.setHost later) := by simp [fetch, h]

theorem takeWord_of_command (s : State) (w : Word) (i : Instr) (hd : decode w = .command i) :
    takeWord w s = exec i s := by simp [takeWord, hd]

theorem takeWord_of_illegal (s : State) (w : Word) (why : IllegalWord) (hd : decode w = .illegal why) :
    takeWord w s = ifRunning s (s.raise .illegalCommand) := by simp [takeWord, takeIllegal, hd]

/-- Everything a step can do, by the host's next event. -/
theorem step_cases {s t : State} (h : step s = .next t) :
    (s.host = [] ∧ t = s) ∨
    (∃ later, s.host = .reset :: later ∧ t = s.resetBlock later) ∨
    (∃ later, s.host = .takeByte :: later ∧ t = (s.setHost later).takeByte) ∨
    (∃ w later i, s.host = .command w :: later ∧ decode w = .command i ∧ exec i (s.setHost later) = .next t) ∨
    (∃ w later why, s.host = .command w :: later ∧ decode w = .illegal why ∧
      ifRunning (s.setHost later) ((s.setHost later).raise .illegalCommand) = .next t) := by
  rcases hh : s.host with _ | ⟨e, later⟩
  · simp only [step, fetch_waiting s hh] at h
    cases h
    exact .inl ⟨rfl, rfl⟩
  rcases e with w | _ | _
  · rcases hd : decode w with i | why
    · simp only [step, fetch_command s w later hh, takeWord_of_command _ w i hd] at h
      exact .inr (.inr (.inr (.inl ⟨w, later, i, rfl, hd, h⟩)))
    · simp only [step, fetch_command s w later hh, takeWord_of_illegal _ w why hd] at h
      exact .inr (.inr (.inr (.inr ⟨w, later, why, rfl, hd, h⟩)))
  · simp only [step, fetch_reset s later hh] at h
    cases h
    exact .inr (.inl ⟨later, rfl, rfl⟩)
  · simp only [step, fetch_takeByte s later hh] at h
    cases h
    exact .inr (.inr (.inl ⟨later, rfl, rfl⟩))

end Sys2Proof.Machine
end

