-- ==== Sys2Proof/Laws/PerInstr.lean ====
section
/-! SUPPORT. The family EncodeLegal, made per command: the word of the command is well formed, and it selects exactly
one row of the opcode map (30_encoding R63). -/

namespace Sys2Proof.Laws

/-- The command's word passes both checks of a well-formed word, and one row of the opcode map selects it. -/
def EncodeLegal.Statement (i : Instr) : Prop :=
  wordWellFormed (encode i) = true ∧ (opcodeMap.filter fun row => row.selects (encode i)).length = 1

theorem EncodeLegal.crcInit : EncodeLegal.Statement .crcInit := ⟨by decide, by decide⟩
theorem EncodeLegal.crcByte (b : Byte) : EncodeLegal.Statement (.crcByte b) := ⟨by revert b; decide, by revert b; decide⟩
theorem EncodeLegal.crcRead : EncodeLegal.Statement .crcRead := ⟨by decide, by decide⟩
theorem EncodeLegal.b32Init : EncodeLegal.Statement .b32Init := ⟨by decide, by decide⟩
theorem EncodeLegal.b32Byte (b : Byte) : EncodeLegal.Statement (.b32Byte b) := ⟨by revert b; decide, by revert b; decide⟩
theorem EncodeLegal.b32Final : EncodeLegal.Statement .b32Final := ⟨by decide, by decide⟩
theorem EncodeLegal.b32Crc : EncodeLegal.Statement .b32Crc := ⟨by decide, by decide⟩
theorem EncodeLegal.keyClr : EncodeLegal.Statement .keyClr := ⟨by decide, by decide⟩
theorem EncodeLegal.keyPush (b : Byte) : EncodeLegal.Statement (.keyPush b) := ⟨by revert b; decide, by revert b; decide⟩
theorem EncodeLegal.skEnc : EncodeLegal.Statement .skEnc := ⟨by decide, by decide⟩
theorem EncodeLegal.statRead : EncodeLegal.Statement .statRead := ⟨by decide, by decide⟩

end Sys2Proof.Laws
end

