-- ==== Sys2Proof/Laws/Units.lean ====
section
/-! SUPPORT. What the functions of the three units answer. -/

namespace Sys2Proof.Machine

/-! ### CRC -/

@[simp] theorem crcFeed_nil (c : BitVec 16) : crcFeed c [] = c := rfl
@[simp] theorem crcFeed_cons (c : BitVec 16) (b : Byte) (m : List Byte) : crcFeed c (b :: m) = crcFeed (crcStep c b) m := rfl

/-- One turn of the update is linear over XOR. -/
theorem crcShift_xor (c d : BitVec 16) : crcShift (c ^^^ d) = crcShift c ^^^ crcShift d := by
  have hs : ∀ x y p q : BitVec 16, (x ^^^ y) ^^^ (p ^^^ q) = (x ^^^ p) ^^^ (y ^^^ q) := by
    intro x y p q
    ac_rfl
  unfold crcShift
  rw [BitVec.getLsbD_xor, BitVec.shiftLeft_xor_distrib]
  cases c.getLsbD 15 <;> cases d.getLsbD 15
  · simp
  · simp [BitVec.xor_assoc]
  · simp [BitVec.xor_assoc, BitVec.xor_comm crcPoly]
  · simp only [Bool.xor_self, Bool.false_eq_true, if_false, if_true]
    rw [hs, BitVec.xor_self, BitVec.xor_zero]

theorem crcShifts_xor (n : Nat) (c d : BitVec 16) : crcShifts n (c ^^^ d) = crcShifts n c ^^^ crcShifts n d := by
  induction n generalizing c d with
  | zero => rfl
  | succ n ih => simp [crcShifts, crcShift_xor, ih]

/-! ### Base32 -/

/-- The loop of the byte step stops with fewer than five bits. -/
theorem cutGroups_rest (fuel : Nat) (t : BitVec 12) (k : Nat) (h : k < 5 * fuel + 5) : (cutGroups fuel t k).2 < 5 := by
  induction fuel generalizing k with
  | zero => simpa [cutGroups] using h
  | succ fuel ih =>
    by_cases hk : 5 ≤ k
    · simp only [cutGroups, hk, if_true]
      exact ih (k - 5) (by omega)
    · simp only [cutGroups, hk, if_false]
      omega

/-- The loop cuts off whole groups. -/
theorem cutGroups_count (fuel : Nat) (t : BitVec 12) (k : Nat) :
    5 * (cutGroups fuel t k).1.length + (cutGroups fuel t k).2 = k := by
  induction fuel generalizing k with
  | zero => simp [cutGroups]
  | succ fuel ih =>
    by_cases hk : 5 ≤ k
    · simp only [cutGroups, hk, if_true, List.length_cons]
      have := ih (k - 5)
      omega
    · simp [cutGroups, hk]

theorem youngestBits_lt (t : BitVec 12) (k : Nat) (h : k < 5) : (youngestBits t k).toNat < 2 ^ k := by
  unfold youngestBits
  rw [BitVec.toNat_setWidth, BitVec.toNat_and]
  have hm : (((1 : BitVec 12) <<< k) - 1).toNat = 2 ^ k - 1 := by
    interval_cases k <;> rfl
  have hp : 0 < 2 ^ k := Nat.two_pow_pos k
  calc (t.toNat &&& (((1 : BitVec 12) <<< k) - 1).toNat) % 2 ^ 4
      ≤ t.toNat &&& (((1 : BitVec 12) <<< k) - 1).toNat := Nat.mod_le _ _
    _ ≤ 2 ^ k - 1 := by rw [hm]; exact Nat.and_le_right
    _ < 2 ^ k := by omega

/-- After a byte the pending bits are legal, whatever they were before (R102). -/
theorem b32Absorb_legal (a : BitVec 4) (n : BitVec 3) (b : Byte) :
    (b32Absorb a n b).nb.toNat ≤ 4 ∧ (b32Absorb a n b).acc.toNat < 2 ^ (b32Absorb a n b).nb.toNat := by
  have hk : (cutGroups 3 ((a.setWidth 12 <<< 8) ||| b.setWidth 12) (n.toNat + 8)).2 < 5 :=
    cutGroups_rest 3 _ _ (by have := n.isLt; omega)
  simp only [b32Absorb, BitVec.toNat_ofNat]
  rw [Nat.mod_eq_of_lt (by omega)]
  exact ⟨by omega, youngestBits_lt _ _ hk⟩

/-- A byte into the Base32 text keeps the invariant. -/
theorem State.absorb_inv (s : State) (b : Byte) (h : s.Inv) : (s.absorb b).Inv := by
  obtain ⟨_, hkey, hcause, htaken⟩ := h
  refine ⟨b32Absorb_legal _ _ _, hkey, hcause, ?_⟩
  simp only [State.absorb, State.setPending_taken, State.setPending_out, State.emitAll_taken, State.emitAll_out,
    List.length_append]
  omega

variable (s : State)

/-! ### `absorb`, field by field -/

@[simp] theorem State.absorb_crc (b : Byte) : (s.absorb b).crc = s.crc := rfl
@[simp] theorem State.absorb_acc (b : Byte) : (s.absorb b).acc = (b32Absorb s.acc s.nb b).acc := rfl
@[simp] theorem State.absorb_nb (b : Byte) : (s.absorb b).nb = (b32Absorb s.acc s.nb b).nb := rfl
@[simp] theorem State.absorb_keybuf (b : Byte) : (s.absorb b).keybuf = s.keybuf := rfl
@[simp] theorem State.absorb_klen (b : Byte) : (s.absorb b).klen = s.klen := rfl
@[simp] theorem State.absorb_cause (b : Byte) : (s.absorb b).cause = s.cause := rfl
@[simp] theorem State.absorb_out (b : Byte) : (s.absorb b).out = s.out ++ (b32Absorb s.acc s.nb b).chars := rfl
@[simp] theorem State.absorb_host (b : Byte) : (s.absorb b).host = s.host := rfl
@[simp] theorem State.absorb_taken (b : Byte) : (s.absorb b).taken = s.taken := rfl
@[simp] theorem State.absorb_pastRuns (b : Byte) : (s.absorb b).pastRuns = s.pastRuns := rfl

/-! ### `encodeKey`, field by field -/

@[simp] theorem State.encodeKey_crc : s.encodeKey.crc = crc16 (versionedPayload s.rawKey) := rfl
@[simp] theorem State.encodeKey_acc : s.encodeKey.acc = 0 := rfl
@[simp] theorem State.encodeKey_nb : s.encodeKey.nb = 0 := rfl
@[simp] theorem State.encodeKey_keybuf : s.encodeKey.keybuf = s.keybuf := rfl
@[simp] theorem State.encodeKey_klen : s.encodeKey.klen = 0 := rfl
@[simp] theorem State.encodeKey_cause : s.encodeKey.cause = s.cause := rfl
@[simp] theorem State.encodeKey_out : s.encodeKey.out = s.out ++ encodedAddress s.rawKey := rfl
@[simp] theorem State.encodeKey_host : s.encodeKey.host = s.host := rfl
@[simp] theorem State.encodeKey_taken : s.encodeKey.taken = s.taken := rfl
@[simp] theorem State.encodeKey_pastRuns : s.encodeKey.pastRuns = s.pastRuns := rfl

/-! ### `pushKey`: everything a push can do -/

theorem State.pushKey_of_room (b : Byte) (h : s.klen.toNat < 32) :
    s.pushKey b = (s.memWrite s.klen.toNat b).setKlen (s.klen + 1) := by
  have hk : s.klen < fullKlen := h
  simp [State.pushKey, hk]

theorem State.pushKey_of_full (b : Byte) (h : 32 ≤ s.klen.toNat) : s.pushKey b = s.setKlen overfullKlen := by
  have hk : ¬ s.klen < fullKlen := fun hlt => absurd (show s.klen.toNat < 32 from hlt) (by omega)
  simp [State.pushKey, hk]

/-- The count of a push that is stored does not wrap. -/
theorem klen_succ_toNat (n : BitVec 6) (h : n.toNat < 32) : (n + 1).toNat = n.toNat + 1 := by
  have hone : (1 : BitVec 6).toNat = 1 := rfl
  rw [BitVec.toNat_add, hone]
  omega

/-- A push keeps the key buffer legal. -/
theorem State.pushKey_keyLegal (b : Byte) (h : s.KeyLegal) : (s.pushKey b).KeyLegal := by
  obtain ⟨hle, hwf, hlisted⟩ := h
  by_cases hk : s.klen.toNat < 32
  · rw [State.pushKey_of_room s b hk]
    have hsucc := klen_succ_toNat s.klen hk
    refine ⟨?_, Memory.write_wf _ _ _ hk hwf, ?_⟩
    · show (s.klen + 1).toNat ≤ 33
      omega
    · intro j hj
      have hj' : j < min (s.klen + 1).toNat 32 := hj
      show ((s.keybuf.write s.klen.toNat b).lookup j).isSome = true
      by_cases hjk : j = s.klen.toNat
      · rw [hjk, Memory.lookup_write_same]
        rfl
      · rw [Memory.lookup_write_other _ _ _ _ hjk]
        exact hlisted j (by omega)
  · rw [State.pushKey_of_full s b (by omega)]
    refine ⟨show (33 : BitVec 6).toNat ≤ 33 by decide, hwf, ?_⟩
    intro j hj
    have hj' : j < min (33 : BitVec 6).toNat 32 := hj
    have h33 : (33 : BitVec 6).toNat = 33 := rfl
    exact hlisted j (by omega)

/-- The raw key looks at the bytes below 32 only. -/
theorem State.rawKey_congr {t : State} (h : Memory.agreeBelow 32 s.keybuf t.keybuf) : s.rawKey = t.rawKey := by
  refine List.map_congr_left fun i hi => ?_
  have hlookup : s.keybuf.lookup i = t.keybuf.lookup i := h i (by simpa using hi)
  simp [State.memRead, hlookup]

end Sys2Proof.Machine
end

