-- ==== Sys2Proof/Laws/Session.lean ====
section
/-! SUPPORT. What running the host's events does. -/

namespace Sys2Proof.Machine

@[simp] theorem andThen_next {σ τ : Type} (s : σ) (f : σ → Host.Outcome τ Fault Refusal) :
    andThen (.next s) f = f s := rfl

@[simp] theorem runEvents_nil (s : State) : runEvents [] s = .next s := rfl

theorem runEvents_append (es fs : List PortEvent) (s : State) :
    runEvents (es ++ fs) s = andThen (runEvents es s) (runEvents fs) := by
  induction es generalizing s with
  | nil => rfl
  | cons e es ih =>
    rw [List.cons_append, runEvents, runEvents]
    rcases step (s.setHost (e :: s.host)) with t | r | r
    · exact ih t
    · rfl
    · rfl

theorem runEvents_reset (s : State) : runEvents [.reset] s = .next (s.resetBlock s.host) := rfl

/-- One command word: the block's `step(S, w)`; the host's later events are untouched. -/
theorem runEvents_command (w : Word) (es : List PortEvent) (s : State) :
    runEvents (.command w :: es) s = andThen (takeWord w s) (runEvents es) := rfl

/-- Taking `n` bytes that are there: the count advances by `n` and nothing else changes. -/
theorem runEvents_take (n : Nat) (s : State) (h : s.taken + n ≤ s.out.length) :
    runEvents (List.replicate n .takeByte) s = .next { s with taken := s.taken + n } := by
  induction n generalizing s with
  | zero => rfl
  | succ n ih =>
    have hlt : s.taken < s.out.length := by omega
    have hstep : step (s.setHost (.takeByte :: s.host)) = .next { s with taken := s.taken + 1 } := by
      show Host.Outcome.next s.takeByte = _
      simp [State.takeByte, hlt]
    rw [List.replicate_succ, runEvents, hstep, andThen_next, ih]
    · simp only [Host.Outcome.next.injEq, State.mk.injEq, true_and, and_true]
      omega
    · show s.taken + 1 + n ≤ s.out.length
      omega

/-- Receiving `n` bytes that are there gives exactly the next `n` bytes of `OUT`. -/
theorem receive_next (n : Nat) (s : State) (h : s.taken + n ≤ s.out.length) :
    receive n s = .next ((s.out.drop s.taken).take n, { s with taken := s.taken + n }) := by
  rw [receive, runEvents_take n s h, andThen_next]
  simp only [State.delivered, List.drop_take, Nat.add_sub_cancel_left]

/-- Sending commands whose words decode to themselves runs the commands one after the other. -/
theorem runEvents_wordsOf (is : List Instr) (s : State) (h : ∀ i ∈ is, decode (encode i) = .command i) :
    runEvents (wordsOf is) s = execAll is s := by
  induction is generalizing s with
  | nil => rfl
  | cons i is ih =>
    have hrest : ∀ t, runEvents (wordsOf is) t = execAll is t := fun t =>
      ih t fun j hj => h j (List.mem_cons_of_mem _ hj)
    show andThen (takeWord (encode i) s) (runEvents (wordsOf is)) = _
    rw [takeWord_of_command s _ i (h i List.mem_cons_self), execAll]
    rcases exec i s with t | r | r
    · exact hrest t
    · rfl
    · rfl

/-- What the host does first leaves a running block with no byte of `OUT` waiting. -/
theorem preparation_ready (s : State) (h : s.taken ≤ s.out.length) :
    ∃ r, runEvents (preparation s) s = .next r ∧ r.cause = 0 ∧ r.taken = r.out.length ∧ r.host = s.host ∧
      r.out = (if s.cause = 0 then s.out else []) := by
  by_cases hc : s.cause = 0
  · refine ⟨{ s with taken := s.out.length }, ?_, hc, rfl, rfl, by simp [hc]⟩
    have hf : s.faultOutput = false := by simp [State.faultOutput, State.halted, hc]
    rw [preparation, hf, if_neg Bool.false_ne_true, runEvents_take _ s (by omega)]
    simp only [Host.Outcome.next.injEq, State.mk.injEq, true_and, and_true]
    omega
  · refine ⟨s.resetBlock s.host, ?_, rfl, rfl, rfl, by rw [if_neg hc]; rfl⟩
    have hf : s.faultOutput = true := by simpa [State.faultOutput, State.halted] using hc
    rw [preparation, hf, if_pos rfl, runEvents_reset]

end Sys2Proof.Machine
end

