-- ==== Sys2Proof/Tests/Slice0.lean ====
section
/-! SUPPORT. Tests of the model against values the spec prints (95_test_vectors and the worked examples of the
instruction rules), each source named at its test; the smoke test of WellFormed; the witnesses of the obligations. -/

namespace Sys2Proof.Tests

open Sys2Proof.Machine

/-! ### Helpers -/

/-- A running block with these registers, no key, nothing emitted. -/
def block (crc : BitVec 16) (acc : BitVec 4) (nb : BitVec 3) : State := { State.reset with crc := crc, acc := acc, nb := nb }

/-- A block whose key buffer was loaded with `k` by pushes. -/
def loaded (k : List Byte) : State :=
  { State.reset with keybuf := (List.range k.length).zip k, klen := BitVec.ofNat 6 k.length }

/-- The key of the known vector (95 section 1.1). -/
def knownKey : List Byte :=
  [ 0xCD, 0x0D, 0x01, 0xC4, 0x73, 0xA4, 0x66, 0x9A, 0x11, 0x00, 0x89, 0x7F, 0x74, 0xF1, 0x3F, 0x2D ] ++
  [ 0xD2, 0xEE, 0x41, 0x7E, 0x37, 0x30, 0xB2, 0x79, 0x4E, 0x44, 0x89, 0xFD, 0x3B, 0x94, 0xEA, 0x1D ]

/-- Its address, `SDGQ2AOEOOSGNGQRACEX65HRH4W5F3SBPY3TBMTZJZCIT7J3STVB27S7`, as the 56 bytes of 95 program P3. -/
def knownAddress : List Byte :=
  [ 0x53, 0x44, 0x47, 0x51, 0x32, 0x41, 0x4F, 0x45, 0x4F, 0x4F, 0x53, 0x47, 0x4E, 0x47, 0x51, 0x52, 0x41, 0x43, 0x45 ] ++
  [ 0x58, 0x36, 0x35, 0x48, 0x52, 0x48, 0x34, 0x57, 0x35, 0x46, 0x33, 0x53, 0x42, 0x50, 0x59, 0x33, 0x54, 0x42, 0x4D ] ++
  [ 0x54, 0x5A, 0x4A, 0x5A, 0x43, 0x49, 0x54, 0x37, 0x4A, 0x33, 0x53, 0x54, 0x56, 0x42, 0x32, 0x37, 0x53, 0x37 ]

/-- The next state of a result, if it is one. -/
def nextOf : Result → Option State
  | .next s => some s
  | .fault _ => none
  | .refused _ => none

/-- The state after one command word, if the step answers one. -/
def after (s : State) (w : Nat) : Option State := nextOf (step (s.withFetchWord 16 w))

/-- A halted block. -/
def haltedBlock (cause : BitVec 2) : State := { State.reset with crc := 0x2672, cause := cause }

/-! ### WellFormed smoke test (R64): an ill-formed word for each check -/

theorem test_unassigned_opcode_refused : wordWellFormed 0x1300 = false ∧ opcodeAssigned 0x1300 = false := by decide
theorem test_reserved_operand_refused :
    wordWellFormed 0x2380 = false ∧ opcodeAssigned 0x2380 = true ∧ reservedOperandZero 0x2380 = false := by decide
theorem test_legal_word_accepted : wordWellFormed 0x213D = true ∧ legalWord 0x213D = true := by decide

/-! ### Decoding, each word written out bit by bit from R60 and R63 (OPC, then IMM8) -/

theorem test_decode_crc_init : decode 0b0001_0000_0000_0000 = .command .crcInit := by decide
theorem test_decode_crc_byte : decode 0b0001_0001_0011_0001 = .command (.crcByte 0x31) := by decide
theorem test_decode_crc_read : decode 0b0001_0010_0000_0000 = .command .crcRead := by decide
theorem test_decode_b32_init : decode 0b0010_0000_0000_0000 = .command .b32Init := by decide
theorem test_decode_b32_byte : decode 0b0010_0001_0011_1101 = .command (.b32Byte 0x3D) := by decide
theorem test_decode_b32_final : decode 0b0010_0010_0000_0000 = .command .b32Final := by decide
theorem test_decode_b32_crc : decode 0b0010_0011_0000_0000 = .command .b32Crc := by decide
theorem test_decode_key_clr : decode 0b0011_0000_0000_0000 = .command .keyClr := by decide
theorem test_decode_key_push : decode 0b0011_0001_1001_0000 = .command (.keyPush 0x90) := by decide
theorem test_decode_sk_enc : decode 0b0011_0010_0000_0000 = .command .skEnc := by decide
theorem test_decode_stat_read : decode 0b0100_0000_0000_0000 = .command .statRead := by decide
/-- 95 section 4.3: the two bytes of `CRC.BYTE 0x00` swapped. -/
theorem test_decode_swapped_bytes : decode 0b0000_0000_0001_0001 = .illegal (.unassignedOpcode 0x00) := by decide
theorem test_decode_table_word : decodeTableWord 16 0x11FF = some (.crcByte 0xFF) ∧ decodeTableWord 16 0x1001 = none := by
  decide

/-! ### Commands, at most two tests each -/

/-- R83's example. -/
theorem test_crc_init : (after (block 0x31C3 0 0) 0x1000).map (fun t => (t.crc, t.out)) = some (0x0000, []) := by decide
/-- R84's example; 95 section 2.2 row 3. -/
theorem test_crc_byte_from_zero : (after State.reset 0x1131).map State.crc = some 0x2672 := by decide
theorem test_crc_byte_running : (after (block 0x2672 0 0) 0x1132).map State.crc = some 0x20B5 := by decide
/-- R85's example. -/
theorem test_crc_read :
    (after (block 0x31C3 0 0) 0x1200).map (fun t => (t.out, t.crc)) = some ([0xC3, 0x31], 0x31C3) := by decide
/-- R105's example. -/
theorem test_b32_init : (after (block 0 0b0110 3) 0x2000).map (fun t => (t.acc, t.nb, t.out)) = some (0, 0, []) := by
  decide
/-- 95 section 3.2, rows `0101, 3 / A5` (`WS`) and `1010, 4 / A5` (`VJ`). -/
theorem test_b32_byte_three_pending :
    (after (block 0 0b0101 3) 0x21A5).map (fun t => (t.acc, t.nb, t.out)) = some (1, 1, [0x57, 0x53]) := by decide
theorem test_b32_byte_four_pending :
    (after (block 0 0b1010 4) 0x21A5).map (fun t => (t.acc, t.nb, t.out)) = some (1, 2, [0x56, 0x4A]) := by decide
/-- R107's example (`Y`); 95 section 3.3, row `1111, 4` (`6`). -/
theorem test_b32_final_three_pending :
    (after (block 0 0b0110 3) 0x2200).map (fun t => (t.acc, t.nb, t.out)) = some (0, 0, [0x59]) := by decide
theorem test_b32_final_four_pending : (after (block 0 0b1111 4) 0x2200).map State.out = some [0x36] := by decide
/-- 95 section 3.4, row `0x31C3 / 1010, 4` (`VQZR`) and R108's example (`F7F`). -/
theorem test_b32_crc_four_pending :
    (after (block 0x31C3 0b1010 4) 0x2300).map (fun t => (t.acc, t.nb, t.out)) =
      some (0, 0, [0x56, 0x51, 0x5A, 0x52]) := by decide
theorem test_b32_crc_three_pending :
    (after (block 0x5F7E 0b001 3) 0x2300).map (fun t => (t.acc, t.nb, t.out, t.crc)) =
      some (0b1111, 4, [0x46, 0x37, 0x46], 0x5F7E) := by decide
/-- R121's example. -/
theorem test_key_clr : (after { State.reset with klen := 17 } 0x3000).map State.klen = some 0 := by decide
/-- 95 section 4.2: the first push and the push at 32. -/
theorem test_key_push_first :
    (after State.reset 0x31CD).map (fun t => (t.keybuf.lookup 0, t.klen)) = some (some 0xCD, 1) := by decide
theorem test_key_push_too_many :
    (after (loaded knownKey) 0x3155).map (fun t => (t.klen, t.keybuf == (loaded knownKey).keybuf, t.cause)) =
      some (33, true, 0) := by decide
/-- R124's example, the source's known vector (95 section 1). -/
theorem test_sk_enc_known_vector :
    (after (loaded knownKey) 0x3200).map (fun t => (t.out, t.crc, t.acc, t.nb, t.klen)) =
      some (knownAddress, 0x5F7E, 0, 0, 0) := by decide +kernel
/-- 95 section 4.2: a 31-byte key. -/
theorem test_sk_enc_short_key :
    (after (loaded (knownKey.take 31)) 0x3200).map (fun t => (t.cause, t.out, t.klen)) = some (2, [], 31) := by decide
/-- 95 section 4.4: STAT.READ in a halted and in a running block. -/
theorem test_stat_read_halted : (after (haltedBlock 1) 0x4000).map State.out = some [0x01] := by decide
theorem test_stat_read_running : (after State.reset 0x4000).map State.out = some [0x00] := by decide

/-! ### Faults, the halted block, the ports, the host (95 section 4.4) -/

theorem test_illegal_word_faults :
    (after (block 0x2672 0 0) 0x1001).map (fun t => (t.cause, t.crc, t.out)) = some (1, 0x2672, []) := by decide
theorem test_halted_drops_command : after (haltedBlock 1) 0x1131 = some (haltedBlock 1) := by decide
theorem test_halted_drops_illegal : after (haltedBlock 2) 0x0000 = some (haltedBlock 2) := by decide
theorem test_halted_drops_sk_enc : after (haltedBlock 1) 0x3200 = some (haltedBlock 1) := by decide
theorem test_reset_input :
    nextOf (step { haltedBlock 2 with out := [0x02], host := [.reset] }) = some { State.reset with pastRuns := [[0x02]] } := by
  decide
theorem test_output_port :
    (nextOf (step { State.reset with out := [0xC3, 0x31], taken := 1, host := [.takeByte] })).map State.delivered =
      some [0xC3, 0x31] := by decide
/-- R132: `cd` then `0D` would rest on the host's choice; lower-case digits do not. -/
theorem test_parse_hex : parseHex ['c', 'd', '0', 'd'] = .ok [0xCD, 0x0D] := by decide
/-- R133: "zz" is a decoding error. -/
theorem test_parse_zz : parseHex ['z', 'z', '0', '0'] = .error .decodingError := by decide
/-- What a session answers, the status byte read, and the block's `CAUSE`, `OUT` and bytes taken. -/
def sessionResult (r : Host.Outcome HostSession Fault Refusal) :
    Option (HostAnswer (List Byte) × Option Byte × BitVec 2 × List Byte × Nat) :=
  match r with
  | .next h => some (h.answer, h.status, h.block.cause, h.block.out, h.block.taken)
  | .fault _ => none
  | .refused _ => none

/-- R134 on the all-zero key, a byte of `OUT` left from before: the 56 bytes of 95 section 4.1's first row (`S`, 51 `A`,
`BSU2`). -/
theorem test_session_address :
    sessionResult (encodePushing true (List.replicate 64 '0') { State.reset with out := [0x00] }) =
      some (.ok (0x53 :: (List.replicate 51 0x41 ++ [0x42, 0x53, 0x55, 0x32])), none, 0,
        0x00 :: 0x53 :: (List.replicate 51 0x41 ++ [0x42, 0x53, 0x55, 0x32]), 57) := by decide +kernel
/-- R133's second way on 31 bytes: the status byte 0x02 (95 program P5), the length error, the block reset. -/
theorem test_session_short_key :
    sessionResult (encodePushing true (List.replicate 62 '0') { State.reset with out := [0x00] }) =
      some (.error .invalidLengthError, some 0x02, 0, [], 0) := by decide +kernel
/-- R67's listing line and an operand in capitals. -/
theorem test_listing : assemblerText (.keyPush 0xCD) = "KEY.PUSH 0xCD" := by decide
/-- 95 section 2.1: the check value, a message ending in a zero byte. -/
theorem test_crc16_check_value : crc16 [0x31, 0x32, 0x33, 0x34, 0x35, 0x36, 0x37, 0x38, 0x39] = 0x31C3 := by decide +kernel
/-- 95 section 3.1: the message whose groups are 0 to 31 in order gives the whole alphabet. -/
theorem test_b32_whole_alphabet :
    b32 [0x00, 0x44, 0x32, 0x14, 0xC7, 0x42, 0x54, 0xB6, 0x35, 0xCF, 0x84, 0x65, 0x3A, 0x56, 0xD7, 0xC6, 0x75, 0xBE,
      0x77, 0xDF] = alphabet := by decide +kernel
/-- 95 section 3.1: `foob` gives `MZXW6YQ`, and its padded form adds one `=`. -/
theorem test_b32_padded : b32Padded [0x66, 0x6F, 0x6F, 0x62] = [0x4D, 0x5A, 0x58, 0x57, 0x36, 0x59, 0x51, 0x3D] := by
  decide

/-! ### Witnesses: for each statement with hypotheses, a state and operands that meet them -/

theorem witness_DecodeInvertsEncode : decode 0x11FF = .command (.crcByte 0xFF) ∧ decode 0x4000 = .command .statRead := by
  decide
theorem witness_DecoderFollowsTheOpcodeMap :
    decode 0x31FF = .command (.keyPush 0xFF) ∧
    ∃ row ∈ opcodeMap, row.selects 0x31FF = true ∧ row.mnemonic = "KEY.PUSH" := by decide
/-- Both values of `CAUSE` the last clause tells apart. -/
theorem witness_IllegalWordsAreOfTwoKinds :
    State.reset.cause = 0 ∧ (haltedBlock 2).cause ≠ 0 ∧ wordWellFormed 0x10FF = false := by decide
theorem witness_StepRunsTheDecodedCommand :
    ({ State.reset with host := [.command 0x1131, .reset] } : State).host = .command 0x1131 :: [.reset] ∧
    decode 0x1131 = .command (.crcByte 0x31) := by decide
/-- A running and a halted block. -/
theorem witness_StepTestsHaltedThenLegality :
    State.reset.cause = 0 ∧ (haltedBlock 1).cause ≠ 0 ∧ decode 0x4000 = .command .statRead := by decide
theorem witness_ResetInputGivesTheResetState :
    ({ haltedBlock 1 with host := [.reset, .command 0x1000] } : State).host = .reset :: [.command 0x1000] := by decide
theorem witness_WaitingChangesNothing : (haltedBlock 1).host = [] := by decide
/-- The last byte of `OUT` is offered; behind it nothing is. -/
theorem witness_OutputPortDeliversInOrder :
    ({ State.reset with out := [0xC3, 0x31], taken := 1, host := [.takeByte] } : State).offered = some 0x31 ∧
    ({ State.reset with out := [0xC3, 0x31], taken := 2, host := [.takeByte] } : State).offered = none := by decide

/-- The hypothesis of every statement about a running block: CrcInitStartsANewComputation, CrcByteTakesOneByte,
CrcReadEmitsLowByteFirst, B32InitStartsANewText, B32FinalEndsTheText, KeyClrEmptiesTheBuffer, StatReadEmitsTheStatus,
CrcIsThePolynomialRemainder, B32MessageEmitsItsText, PendingCountCycle, KeyLoadFillsTheBuffer; and a non-zero
operand field for the words their clauses call illegal. -/
theorem witness_running_block :
    (block 0x31C3 0b1111 4).cause = 0 ∧ (0x01 : Byte) ≠ 0 ∧ (4 : BitVec 3) ≠ 0 := by decide
theorem witness_B32FinalEndsTheText :
    exec .b32Final (block 0 0b0110 3) = .next { block 0 0 0 with out := [0x59] } := rfl
/-- `NB` at both ends of both clauses. -/
theorem witness_B32ByteTakesOneByte :
    State.reset.cause = 0 ∧ (0 : BitVec 3).toNat ≤ 1 ∧ (1 : BitVec 3).toNat ≤ 1 ∧ ¬ (2 : BitVec 3).toNat ≤ 1 ∧
    (4 : BitVec 3).toNat ≤ 4 := by decide
theorem witness_B32CrcAppendsTheChecksum :
    (block 0x31C3 0b1111 4).cause = 0 ∧ (block 0x31C3 0b1111 4).PendingLegal ∧ (block 0x31C3 0b111 3).PendingLegal := by
  decide
/-- `KLEN` 31, 32 and 33, where the clauses meet. -/
theorem witness_KeyPushStoresAndCounts :
    (loaded (knownKey.take 31)).klen.toNat < 32 ∧ 32 ≤ (loaded knownKey).klen.toNat ∧
    (loaded (knownKey ++ [0x55])).klen = 33 ∧ (loaded knownKey).cause = 0 := by decide
theorem witness_KeyPush_leaves_33 :
    exec .crcInit (loaded (knownKey ++ [0x55])) = .next (loaded (knownKey ++ [0x55])) ∧ Instr.crcInit ≠ .keyClr :=
  ⟨rfl, by decide⟩
theorem witness_SkEncEncodesTheKey :
    (loaded knownKey).cause = 0 ∧ (loaded knownKey).klen = 32 ∧ State.reset.klen ≠ 32 ∧
    (loaded (knownKey ++ [0x55])).klen ≠ 32 := by decide
theorem witness_IllegalWordFaults :
    State.reset.cause = 0 ∧
    decode 0x10FF = .illegal (.reservedOperand 0x10 0xFF) ∧ decode 0x0000 = .illegal (.unassignedOpcode 0x00) := by decide
/-- Too few and too many. -/
theorem witness_SkEncOnWrongLengthFaults :
    (loaded (knownKey.take 31)).klen ≠ 32 ∧ (loaded (knownKey ++ [0x55])).klen ≠ 32 ∧
    (loaded (knownKey.take 31)).cause = 0 := by decide
theorem witness_HaltedBlockDropsEveryOtherWord :
    (haltedBlock 1).cause ≠ 0 ∧ Instr.skEnc ≠ .statRead ∧ (0x4001 : Word) ≠ 0x4000 := by decide
theorem witness_OnlyResetChangesTheCauseOfAHaltedBlock :
    takeWord 0x0000 (haltedBlock 2) = .next (haltedBlock 2) ∧
    step { haltedBlock 2 with host := [.command 0x0000] } = .next (haltedBlock 2) ∧ (haltedBlock 2).cause ≠ 0 ∧
    ({ haltedBlock 2 with host := [.command 0x0000] } : State).host.head? ≠ some .reset :=
  ⟨rfl, rfl, by decide, by decide⟩
theorem witness_FaultsHaveTheirCausesOnly_words :
    takeWord 0x0000 State.reset = .next { State.reset with cause := 1 } ∧
    takeWord 0x3200 State.reset = .next { State.reset with cause := 2 } := ⟨rfl, rfl⟩
theorem witness_FaultsHaveTheirCausesOnly :
    exec .skEnc State.reset = .next { State.reset with cause := 2 } ∧ State.reset.cause = 0 ∧ State.reset.klen ≠ 32 ∧
    (haltedBlock 2).cause ≠ 3 ∧ step (haltedBlock 2) = .next (haltedBlock 2) :=
  ⟨rfl, by decide, by decide, by decide, rfl⟩
theorem witness_StatusAndFaultFollowCause : (haltedBlock 2).Inv ∧ (2 : Nat) ≤ 2 := by decide
/-- A full key buffer, four pending bits all set, a step that emits. -/
theorem witness_EveryStepKeepsTheInvariant :
    ({ loaded knownKey with acc := 0b1111, nb := 4 } : State).Inv ∧
    step ({ block 0 0b1111 4 with host := [.command 0x2200] } : State) = .next { block 0 0 0 with out := [0x36] } :=
  ⟨by decide, rfl⟩
theorem witness_OutputOnlyGrows :
    step ({ block 0 0b1111 4 with host := [.command 0x2200] } : State) = .next { block 0 0 0 with out := [0x36] } ∧
    exec .b32Final (block 0 0b1111 4) = .next { block 0 0 0 with out := [0x36] } ∧
    ({ block 0 0b1111 4 with host := [.command 0x2200] } : State).host.head? ≠ some .reset := ⟨rfl, rfl, by decide⟩
theorem witness_EmittedByteCounts :
    (block 0 0b1111 4).cause = 0 ∧ (block 0 0b1111 4).PendingLegal ∧ (loaded knownKey).klen = 32 ∧
    (loaded knownKey).PendingLegal := by decide
theorem witness_SkEncReadsTheKeyOnly :
    ({ loaded knownKey with crc := 0x1234 } : State).keybuf = (loaded knownKey).keybuf ∧
    ({ loaded knownKey with crc := 0x1234 } : State).klen = 32 ∧
    ({ loaded knownKey with crc := 0x1234 } : State).cause = 0 := by decide
/-- At `KLEN = 31` the buffers differ at index 31 and agree below it. -/
theorem witness_StaleKeyBytesAreNeverObserved :
    Memory.agreeBelow (loaded (knownKey.take 31)).klen.toNat (loaded knownKey).keybuf (loaded (knownKey.take 31)).keybuf ∧
    (loaded knownKey).keybuf.lookup 31 ≠ (loaded (knownKey.take 31)).keybuf.lookup 31 ∧
    step (loaded knownKey) = .next (loaded knownKey) :=
  ⟨by unfold Memory.agreeBelow; decide, by decide, rfl⟩
theorem witness_SkEncIsAllOrNothing : exec .skEnc State.reset = .next { State.reset with cause := 2 } := rfl
theorem witness_CrcCommandsFrame :
    exec (.crcByte 0x31) State.reset = .next (block 0x2672 0 0) ∧
    exec .crcRead (block 0x31C3 0 0) = .next { block 0x31C3 0 0 with out := [0xC3, 0x31] } := ⟨rfl, rfl⟩
theorem witness_Base32CommandsFrame :
    exec .b32Init (block 0 0b0110 3) = .next (block 0 0 0) ∧
    exec .b32Final (block 0 0b0110 3) = .next { block 0 0 0 with out := [0x59] } := ⟨rfl, rfl⟩
/-- The byte below and the byte above the one stored, and a push that stores nothing. -/
theorem witness_KeyCommandsFrame :
    exec (.keyPush 0x55) (loaded [0x01, 0x02]) = .next (loaded [0x01, 0x02, 0x55]) ∧
    (1 ≠ (loaded [0x01, 0x02]).klen.toNat ∧ 3 ≠ (loaded [0x01, 0x02]).klen.toNat) ∧
    32 ≤ (loaded knownKey).klen.toNat := ⟨rfl, by decide, by decide⟩
theorem witness_SkEncAndStatReadFrame :
    exec .skEnc State.reset = .next { State.reset with cause := 2 } ∧ State.reset.klen ≠ 32 ∧
    (loaded knownKey).klen = 32 ∧
    exec .statRead (haltedBlock 2) = .next { haltedBlock 2 with out := [0x02] } := ⟨rfl, by decide, by decide, rfl⟩
theorem witness_CrcLaws : (∀ x ∈ ([0x00, 0x00] : List Byte), x = 0x00) := by decide
theorem witness_CrcHoldsTheBytesGiven :
    State.reset.cause = 0 ∧ ∀ i ∈ [Instr.crcByte 0x31, .b32Byte 0x66, .statRead, .keyClr],
      i ≠ .crcInit ∧ i ≠ .skEnc := by decide
theorem witness_B32BlocksAndFronts : ([0x66, 0x6F, 0x6F, 0x62, 0x61] : List Byte).length % 5 = 0 := by decide
/-- The hypothesis holds with both sides computed. -/
theorem witness_B32IsInjective : b32 [0x66] = b32 [0x66] ∧ b32 [0x66] = [0x4D, 0x59] := by decide
theorem witness_B32AlphabetOnly : (0x4D : Byte) ∈ b32 [0x66] := by decide
theorem witness_AddressShape : knownKey.length = 32 ∧ knownKey.head? = some 0xCD := by decide
/-- Two payloads whose last bytes share the low four bits, two checksums whose first bytes share bit 7. -/
theorem witness_WhichCharactersCarryTheChecksum :
    (versionedPayload knownKey).length = 33 ∧ (versionedPayload (knownKey.take 31 ++ [0xFD])).length = 33 ∧
    (versionedPayload knownKey).getLast? = some 0x1D ∧
    (versionedPayload (knownKey.take 31 ++ [0xFD])).getLast? = some 0xFD ∧
    (0x1D : Byte).extractLsb' 0 4 = (0xFD : Byte).extractLsb' 0 4 ∧
    (0x7E : Byte).getLsbD 7 = (0x5F : Byte).getLsbD 7 := by decide
theorem witness_AddressIsInjective : knownKey.length = 32 ∧ encodedAddress knownKey = encodedAddress knownKey :=
  ⟨by decide, rfl⟩
/-- The last index stored, the first not stored for a short key, the first outside the buffer. -/
theorem witness_KeyLoad_indexes :
    (31 < 32 ∧ 31 < knownKey.length) ∧ (knownKey.take 31).length ≤ 31 ∧ 32 ≤ 32 := by decide
theorem witness_StreamingGivesTheSameAddress : (block 0x31C3 0b1111 4).cause = 0 ∧ knownKey.length = 32 := by decide
theorem witness_HostEncodeEmitsTheAddress :
    hostRawKey ('0' :: 'x' :: List.replicate 64 '0') = .ok (List.replicate 32 0x00) ∧ State.reset.cause = 0 ∧
    (haltedBlock 2).taken ≤ (haltedBlock 2).out.length ∧
    ({ State.reset with out := [0x00] } : State).taken ≤ ({ State.reset with out := [0x00] } : State).out.length := by
  decide +kernel
/-- 31 bytes, 33 bytes and no byte at all. -/
theorem witness_PushingAWrongLengthFaults :
    parseHex (strip0x (List.replicate 62 '0')) = .ok (List.replicate 31 0x00) ∧
    parseHex (strip0x (List.replicate 66 'f')) = .ok (List.replicate 33 0xFF) ∧ parseHex (strip0x []) = .ok [] ∧
    State.reset.cause = 0 ∧ (haltedBlock 2).taken ≤ (haltedBlock 2).out.length := by decide +kernel
theorem witness_HostErrorsInOrder :
    (strip0x ['0', 'x', 'a']).length % 2 = 1 ∧ 'z' ∈ strip0x ['z', 'z'] ∧ hexValue 'z' = none ∧
    parseHex (strip0x ['a', 'b']) = .ok [0xAB] ∧ parseHex ['0', '0'] = .ok [0x00] ∧
    hostRawKey ['z', 'z'] = .error .decodingError := by decide

end Sys2Proof.Tests
end

/-! ## What a command does

The effect of each command in a running block and the bytes it emits, as functions of the state, and the lemmas that say
`exec` is these two and the halted test (30_encoding R70). -/

namespace Sys2Proof.Machine

/-- The state a command leads to in a running block. -/
def effect (i : Instr) (s : State) : State :=
  match i with
  | .crcInit => s.setCrc crcInitial
  | .crcByte b => s.setCrc (crcStep s.crc b)
  | .crcRead => s.emitAll (checksumBytes s.crc)
  | .b32Init => s.setPending 0 0
  | .b32Byte b => s.absorb b
  | .b32Final => (s.emitAll (b32Flush s.acc s.nb)).setPending 0 0
  | .b32Crc => (s.absorb (lowByte s.crc)).absorb (highByte s.crc)
  | .keyClr => s.setKlen 0
  | .keyPush b => s.pushKey b
  | .skEnc => if s.klen = fullKlen then s.encodeKey else s.raise .invalidLength
  | .statRead => s.emitAll [s.statusByte]

/-- The bytes a command emits in a running block. -/
def emitted (i : Instr) (s : State) : List Byte :=
  match i with
  | .crcRead => checksumBytes s.crc
  | .b32Byte b => (b32Absorb s.acc s.nb b).chars
  | .b32Final => b32Flush s.acc s.nb
  | .b32Crc => (b32Absorb s.acc s.nb (lowByte s.crc)).chars ++
      (b32Absorb (s.absorb (lowByte s.crc)).acc (s.absorb (lowByte s.crc)).nb (highByte s.crc)).chars
  | .skEnc => if s.klen = fullKlen then encodedAddress s.rawKey else []
  | .statRead => [s.statusByte]
  | .crcInit | .crcByte _ | .b32Init | .keyClr | .keyPush _ => []

/-! ### `exec` by `effect` -/

/-- STAT.READ has no halted test (R140). -/
theorem exec_statRead (s : State) : exec .statRead s = .next (effect .statRead s) := rfl

/-- Every command but STAT.READ begins with the halted test. -/
theorem exec_eq_ifRunning {i : Instr} (s : State) (hi : i ≠ .statRead) : exec i s = ifRunning s (effect i s) := by
  cases i with
  | statRead => exact absurd rfl hi
  | _ => rfl

theorem exec_of_running (i : Instr) {s : State} (h : s.cause = 0) : exec i s = .next (effect i s) := by
  by_cases hi : i = .statRead
  · rw [hi, exec_statRead]
  · rw [exec_eq_ifRunning s hi, ifRunning_of_running s _ h]

theorem exec_of_halted {i : Instr} {s : State} (h : s.cause ≠ 0) (hi : i ≠ .statRead) : exec i s = .next s := by
  rw [exec_eq_ifRunning s hi, ifRunning_of_halted s _ h]

/-- Everything a command can do: its effect, or nothing where a halted block drops it (R154). -/
theorem exec_cases {i : Instr} {s t : State} (h : exec i s = .next t) :
    ((s.cause = 0 ∨ i = .statRead) ∧ t = effect i s) ∨ (s.cause ≠ 0 ∧ i ≠ .statRead ∧ t = s) := by
  by_cases hi : i = .statRead
  · subst hi
    rw [exec_statRead] at h
    cases h
    exact .inl ⟨.inr rfl, rfl⟩
  · rw [exec_eq_ifRunning s hi] at h
    rcases ifRunning_cases h with ⟨hc, ht⟩ | ⟨hc, ht⟩
    · exact .inl ⟨.inl hc, ht⟩
    · exact .inr ⟨hc, hi, ht⟩

/-! ### `emitted` and the fields of `effect` -/

@[simp] theorem State.emitAll_nil (s : State) : s.emitAll [] = s := by
  simp [State.emitAll]

/-- A push changes the key buffer and `KLEN` alone. -/
theorem State.pushKey_eq (s : State) (b : Byte) :
    s.pushKey b = { s with keybuf := (s.pushKey b).keybuf, klen := (s.pushKey b).klen } := by
  unfold State.pushKey
  split <;> rfl

theorem effect_skEnc_of_full {s : State} (h : s.klen = fullKlen) : effect .skEnc s = s.encodeKey := if_pos h

theorem effect_skEnc_of_other {s : State} (h : s.klen ≠ fullKlen) : effect .skEnc s = s.raise .invalidLength :=
  if_neg h

/-- A command's output goes to the end of `OUT` (R30). -/
theorem effect_out (i : Instr) (s : State) : (effect i s).out = s.out ++ emitted i s := by
  cases i with
  | crcRead | b32Byte | b32Final | statRead => rfl
  | b32Crc => exact List.append_assoc ..
  | skEnc =>
    by_cases hk : s.klen = fullKlen
    · simp [effect_skEnc_of_full hk, emitted, hk]
    · simp [effect_skEnc_of_other hk, emitted, hk]
  | keyPush b => exact (congrArg State.out (s.pushKey_eq b)).trans (List.append_nil _).symm
  | crcInit | crcByte | b32Init | keyClr => exact (List.append_nil _).symm

/-- Only SK.ENC raises a fault (R150). -/
theorem effect_cause {i : Instr} (s : State) (hi : i ≠ .skEnc) : (effect i s).cause = s.cause := by
  cases i with
  | skEnc => exact absurd rfl hi
  | keyPush b => exact (congrArg State.cause (s.pushKey_eq b) :)
  | _ => rfl

/-- A command other than CRC.INIT and SK.ENC takes its CRC operands, if any, into `CRC` (R21). -/
theorem effect_crc {i : Instr} (s : State) (hinit : i ≠ .crcInit) (henc : i ≠ .skEnc) :
    (effect i s).crc = (crcOperands [i]).foldl crcStep s.crc := by
  cases i with
  | crcInit => exact absurd rfl hinit
  | skEnc => exact absurd rfl henc
  | keyPush b => exact (congrArg State.crc (s.pushKey_eq b) :)
  | _ => rfl

/-! ### Sequences of commands -/

/-- The effects of commands one after the other. -/
def effects (is : List Instr) (s : State) : State := is.foldl (fun t i => effect i t) s

@[simp] theorem effects_nil (s : State) : effects [] s = s := rfl

@[simp] theorem effects_cons (i : Instr) (is : List Instr) (s : State) :
    effects (i :: is) s = effects is (effect i s) := rfl

theorem effects_append (is js : List Instr) (s : State) : effects (is ++ js) s = effects js (effects is s) :=
  List.foldl_append

theorem effects_cause {is : List Instr} (s : State) (h : .skEnc ∉ is) : (effects is s).cause = s.cause := by
  induction is generalizing s with
  | nil => rfl
  | cons i is ih =>
    rw [List.mem_cons, not_or] at h
    rw [effects_cons, ih _ h.2, effect_cause s (Ne.symm h.1)]

/-- Commands without SK.ENC run to their end in a running block, each with its effect. -/
theorem execAll_of_running {is : List Instr} {s : State} (hs : s.cause = 0) (h : .skEnc ∉ is) :
    execAll is s = .next (effects is s) := by
  induction is generalizing s with
  | nil => rfl
  | cons i is ih =>
    rw [List.mem_cons, not_or] at h
    rw [execAll, exec_of_running i hs, effects_cons]
    exact ih ((effect_cause s (Ne.symm h.1)).trans hs) h.2

/-! ### The step, by the host's next event -/

theorem step_waiting {s : State} (h : s.host = []) : step s = .next s := by
  simp only [step, fetch_waiting s h]

theorem step_reset {s : State} {later : List PortEvent} (h : s.host = .reset :: later) :
    step s = .next (s.resetBlock later) := by
  simp only [step, fetch_reset s later h]

theorem step_takeByte {s : State} {later : List PortEvent} (h : s.host = .takeByte :: later) :
    step s = .next (s.setHost later).takeByte := by
  simp only [step, fetch_takeByte s later h]

theorem step_command {s : State} {w : Word} {later : List PortEvent} (h : s.host = .command w :: later) :
    step s = takeWord w (s.setHost later) := by
  simp only [step, fetch_command s w later h]

end Sys2Proof.Machine

/-! ## The invariant of reachable states (10_state R20, R24 to R28) -/

namespace Sys2Proof.Machine

/-- Settles O29. -/
theorem resetStateMeetsTheInvariant : Obligations.ResetStateMeetsTheInvariant := by
  unfold Obligations.ResetStateMeetsTheInvariant
  decide

/-! ### Every operation keeps it -/

theorem State.resetBlock_inv (s : State) (later : List PortEvent) : (s.resetBlock later).Inv :=
  resetStateMeetsTheInvariant

section
variable {s : State} (h : s.Inv)
include h

theorem State.setHost_inv (es : List PortEvent) : (s.setHost es).Inv := h

theorem State.setCrc_inv (v : BitVec 16) : (s.setCrc v).Inv := h

theorem State.clearPending_inv : (s.setPending 0 0).Inv := by
  obtain ⟨_, hkey, hcause, htaken⟩ := h
  exact ⟨⟨by simp, by simp⟩, hkey, hcause, htaken⟩

theorem State.clearKlen_inv : (s.setKlen 0).Inv := by
  obtain ⟨hpending, ⟨_, hwf, _⟩, hcause, htaken⟩ := h
  exact ⟨hpending, ⟨by simp, hwf, by simp⟩, hcause, htaken⟩

theorem State.emitAll_inv (vs : List Byte) : (s.emitAll vs).Inv := by
  obtain ⟨hpending, hkey, hcause, htaken⟩ := h
  refine ⟨hpending, hkey, hcause, ?_⟩
  rw [State.emitAll_taken, State.emitAll_out, List.length_append]
  omega

theorem State.raise_inv (c : FaultCause) : (s.raise c).Inv := by
  obtain ⟨hpending, hkey, _, htaken⟩ := h
  have hcode : c.code.toNat ≤ 2 := by cases c <;> decide
  exact ⟨hpending, hkey, hcode, htaken⟩

theorem State.takeByte_inv : s.takeByte.Inv := by
  obtain ⟨hpending, hkey, hcause, htaken⟩ := h
  exact ⟨hpending, hkey, hcause, s.takeByte_le htaken⟩

theorem State.encodeKey_inv : s.encodeKey.Inv :=
  State.clearKlen_inv (State.clearPending_inv (State.setCrc_inv (State.emitAll_inv h _) _))

theorem State.pushKey_inv (b : Byte) : (s.pushKey b).Inv := by
  obtain ⟨hpending, hkey, hcause, htaken⟩ := h
  have hkey' := s.pushKey_keyLegal b hkey
  rw [State.pushKey_eq]
  exact ⟨hpending, hkey', hcause, htaken⟩

theorem effect_inv (i : Instr) : (effect i s).Inv := by
  cases i with
  | crcInit | crcByte => exact State.setCrc_inv h _
  | crcRead | statRead => exact State.emitAll_inv h _
  | b32Init => exact State.clearPending_inv h
  | b32Byte b => exact s.absorb_inv b h
  | b32Final => exact State.clearPending_inv (State.emitAll_inv h _)
  | b32Crc => exact State.absorb_inv _ _ (State.absorb_inv _ _ h)
  | keyClr => exact State.clearKlen_inv h
  | keyPush b => exact State.pushKey_inv h b
  | skEnc =>
    by_cases hk : s.klen = fullKlen
    · exact effect_skEnc_of_full hk ▸ State.encodeKey_inv h
    · exact effect_skEnc_of_other hk ▸ State.raise_inv h _

theorem exec_inv {i : Instr} {t : State} (he : exec i s = .next t) : t.Inv := by
  rcases exec_cases he with ⟨_, rfl⟩ | ⟨_, _, rfl⟩
  · exact effect_inv h i
  · exact h

end

/-- Settles O30, by the host's next event: each operation of the state keeps the invariant. -/
theorem everyStepKeepsTheInvariant : Obligations.EveryStepKeepsTheInvariant := by
  unfold Obligations.EveryStepKeepsTheInvariant
  intro s t h hstep
  rcases step_cases hstep with ⟨_, rfl⟩ | ⟨later, _, rfl⟩ | ⟨later, _, rfl⟩ | ⟨w, later, i, _, _, he⟩ |
    ⟨w, later, why, _, _, he⟩
  · exact h
  · exact s.resetBlock_inv later
  · exact State.takeByte_inv (State.setHost_inv h later)
  · exact exec_inv (State.setHost_inv h later) he
  · rcases ifRunning_cases he with ⟨_, rfl⟩ | ⟨_, rfl⟩
    · exact State.raise_inv (State.setHost_inv h later) _
    · exact State.setHost_inv h later

end Sys2Proof.Machine

/-! ## Key bytes at index `KLEN` or above are not observed (10_state R25) -/

namespace Sys2Proof.Machine

/-- `u` is `s` but for key bytes that have no meaning at `s`'s `KLEN`. -/
def SameButStale (s u : State) : Prop :=
  ∃ m : Memory, u = { s with keybuf := m } ∧ Memory.agreeBelow s.klen.toNat s.keybuf m

theorem Memory.agreeBelow_zero (m m' : Memory) : Memory.agreeBelow 0 m m' := by
  intro i hi
  omega

/-- Agreement at a length reaches every shorter length and, from 32 on, every length. -/
theorem Memory.agreeBelow_mono {n k : Nat} {m m' : Memory} (h : Memory.agreeBelow n m m') (hk : min k 32 ≤ n) :
    Memory.agreeBelow k m m' := fun i hi => h i (by omega)

/-- Writing the byte at the end of the agreement extends it by one. -/
theorem Memory.agreeBelow_write {n : Nat} {m m' : Memory} (b : Byte) (h : Memory.agreeBelow n m m') :
    Memory.agreeBelow (n + 1) (m.write n b) (m'.write n b) := by
  intro i hi
  by_cases hin : i = n
  · rw [hin, Memory.lookup_write_same, Memory.lookup_write_same]
  · rw [Memory.lookup_write_other _ _ _ _ hin, Memory.lookup_write_other _ _ _ _ hin]
    exact h i (by omega)

section
variable {s u : State} (h : SameButStale s u)
include h

theorem pushKey_sameButStale (b : Byte) : SameButStale (s.pushKey b) (u.pushKey b) := by
  obtain ⟨m, rfl, hm⟩ := h
  by_cases hk : s.klen.toNat < 32
  · rw [s.pushKey_of_room b hk, State.pushKey_of_room { s with keybuf := m } b hk]
    refine ⟨m.write s.klen.toNat b, rfl, ?_⟩
    rw [State.setKlen_klen, klen_succ_toNat s.klen hk]
    exact Memory.agreeBelow_write b hm
  · rw [s.pushKey_of_full b (by omega), State.pushKey_of_full { s with keybuf := m } b (by simpa using hk)]
    exact ⟨m, rfl, Memory.agreeBelow_mono hm (by omega)⟩

/-- SK.ENC reads the whole buffer, and does so only where all of it has meaning. -/
theorem encodeKey_sameButStale (hk : s.klen = fullKlen) : SameButStale s.encodeKey u.encodeKey := by
  obtain ⟨m, rfl, hm⟩ := h
  rw [hk] at hm
  have hraw : s.rawKey = ({ s with keybuf := m } : State).rawKey := s.rawKey_congr hm
  refine ⟨m, ?_, Memory.agreeBelow_zero _ _⟩
  unfold State.encodeKey
  rw [← hraw]
  rfl

theorem skEnc_sameButStale : SameButStale (effect .skEnc s) (effect .skEnc u) := by
  have hklen : u.klen = s.klen := by
    obtain ⟨m, rfl, _⟩ := h
    rfl
  by_cases hk : s.klen = fullKlen
  · rw [effect_skEnc_of_full hk, effect_skEnc_of_full (hklen.trans hk)]
    exact encodeKey_sameButStale h hk
  · rw [effect_skEnc_of_other hk, effect_skEnc_of_other (hklen ▸ hk)]
    obtain ⟨m, rfl, hm⟩ := h
    exact ⟨m, rfl, hm⟩

/-- Only KEY.PUSH, SK.ENC and KEY.CLR touch the key buffer or `KLEN`. -/
theorem effect_sameButStale (i : Instr) : SameButStale (effect i s) (effect i u) := by
  cases i with
  | keyPush b => exact pushKey_sameButStale h b
  | skEnc => exact skEnc_sameButStale h
  | keyClr =>
    obtain ⟨m, rfl, hm⟩ := h
    exact ⟨m, rfl, Memory.agreeBelow_zero _ _⟩
  | _ =>
    obtain ⟨m, rfl, hm⟩ := h
    exact ⟨m, rfl, hm⟩

theorem ifRunning_sameButStale {s' u' t : State} (h' : SameButStale s' u') (hr : ifRunning s s' = .next t) :
    ∃ v, ifRunning u u' = .next v ∧ SameButStale t v := by
  have hcause : u.cause = s.cause := by
    obtain ⟨m, rfl, _⟩ := h
    rfl
  rcases ifRunning_cases hr with ⟨hc, rfl⟩ | ⟨hc, rfl⟩
  · exact ⟨u', ifRunning_of_running u u' (hcause.trans hc), h'⟩
  · exact ⟨u, ifRunning_of_halted u u' (hcause ▸ hc), h⟩

theorem exec_sameButStale {i : Instr} {t : State} (he : exec i s = .next t) :
    ∃ v, exec i u = .next v ∧ SameButStale t v := by
  by_cases hi : i = .statRead
  · subst hi
    rw [exec_statRead] at he
    cases he
    exact ⟨_, exec_statRead u, effect_sameButStale h .statRead⟩
  · rw [exec_eq_ifRunning s hi] at he
    rw [exec_eq_ifRunning u hi]
    exact ifRunning_sameButStale h (effect_sameButStale h i) he

theorem step_sameButStale {t : State} (hstep : step s = .next t) : ∃ v, step u = .next v ∧ SameButStale t v := by
  obtain ⟨m, rfl, hm⟩ := h
  have hlater (es : List PortEvent) : SameButStale (s.setHost es) (({ s with keybuf := m } : State).setHost es) :=
    ⟨m, rfl, hm⟩
  rcases step_cases hstep with ⟨hh, rfl⟩ | ⟨later, hh, rfl⟩ | ⟨later, hh, rfl⟩ | ⟨w, later, i, hh, hd, he⟩ |
    ⟨w, later, why, hh, hd, he⟩
  · exact ⟨_, step_waiting hh, m, rfl, hm⟩
  · exact ⟨_, step_reset hh, [], rfl, Memory.agreeBelow_zero _ _⟩
  · exact ⟨_, step_takeByte hh, m, rfl, hm⟩
  · rw [step_command (s := { s with keybuf := m }) hh, takeWord_of_command _ w i hd]
    exact exec_sameButStale (hlater later) he
  · rw [step_command (s := { s with keybuf := m }) hh, takeWord_of_illegal _ w why hd]
    exact ifRunning_sameButStale (hlater later) (s' := (s.setHost later).raise _) ⟨m, rfl, hm⟩ he

end

/-- Settles O35: `SameButStale` is kept by every operation of the state, so by the step. -/
theorem staleKeyBytesAreNeverObserved : Obligations.StaleKeyBytesAreNeverObserved := by
  unfold Obligations.StaleKeyBytesAreNeverObserved
  intro s t m hm hstep
  obtain ⟨_, hv, m', rfl, hm'⟩ := step_sameButStale ⟨m, rfl, hm⟩ hstep
  exact ⟨m', hv, hm'⟩

end Sys2Proof.Machine

/-! ## `CAUSE`, `STATUS` and `FAULT` (10_state R28, R29, R33; 60_exceptions R156) -/

namespace Sys2Proof.Machine

/-- Settles O9. -/
theorem resetStateHasTheSpecsValues : Obligations.ResetStateHasTheSpecsValues := by
  unfold Obligations.ResetStateHasTheSpecsValues
  decide

theorem statusByte_high_bits (s : State) (j : Nat) (hj : 2 ≤ j) : s.statusByte.getLsbD j = false := by
  rw [State.statusByte, BitVec.getLsbD_setWidth, BitVec.getLsbD_of_ge s.cause j hj, Bool.and_false]

/-- The status byte of each legal cause. -/
theorem statusByte_of_legal : ∀ c : BitVec 2, c.toNat ≤ 2 →
    c.setWidth 8 = (0x00 : Byte) ∨ c.setWidth 8 = (0x01 : Byte) ∨ c.setWidth 8 = (0x02 : Byte) := by
  decide

/-- Settles O28: a status byte is `CAUSE` with six zero bits above, so the invariant bounds it. -/
theorem statusAndFaultFollowCause : Obligations.StatusAndFaultFollowCause := by
  unfold Obligations.StatusAndFaultFollowCause
  refine ⟨fun s => ?_, fun s => ⟨rfl, statusByte_high_bits s⟩, fun s h => ?_⟩
  · simp [State.faultOutput, State.halted]
  · obtain ⟨_, _, hcause, _⟩ := h
    exact statusByte_of_legal s.cause hcause

end Sys2Proof.Machine

/-! ## What commands emit, and what they do not read (10_state R30, R34) -/

namespace Sys2Proof.Machine

theorem exec_out_grows {i : Instr} {s t : State} (h : exec i s = .next t) : s.out <+: t.out := by
  rcases exec_cases h with ⟨_, rfl⟩ | ⟨_, _, rfl⟩
  · exact ⟨emitted i s, (effect_out i s).symm⟩
  · exact List.prefix_rfl

/-- Settles O31, by the host's next event. -/
theorem outputOnlyGrows : Obligations.OutputOnlyGrows := by
  unfold Obligations.OutputOnlyGrows
  refine ⟨fun i s t h => exec_out_grows h, fun s t hstep hreset => ?_⟩
  rcases step_cases hstep with ⟨_, rfl⟩ | ⟨later, hh, _⟩ | ⟨later, _, rfl⟩ | ⟨w, later, i, _, _, he⟩ |
    ⟨w, later, why, _, _, he⟩
  · exact List.prefix_rfl
  · exact absurd (congrArg List.head? hh) hreset
  · exact List.prefix_rfl
  · exact exec_out_grows (s := s.setHost later) he
  · rcases ifRunning_cases he with ⟨_, rfl⟩ | ⟨_, rfl⟩ <;> exact List.prefix_rfl

/-- The same block with another `OUT` and other bookkeeping of the ports. -/
def State.withPorts (s : State) (o : List Byte) (h : List PortEvent) (n : Nat) (p : List (List Byte)) : State :=
  { s with out := o, host := h, taken := n, pastRuns := p }

section
variable (s : State) (o : List Byte) (h : List PortEvent) (n : Nat) (p : List (List Byte))

/-- A push reads the key buffer and `KLEN` alone. -/
theorem pushKey_withPorts (b : Byte) : (s.withPorts o h n p).pushKey b = (s.pushKey b).withPorts o h n p := by
  by_cases hk : s.klen.toNat < 32
  · rw [s.pushKey_of_room b hk, (s.withPorts o h n p).pushKey_of_room b hk]
    rfl
  · rw [s.pushKey_of_full b (by omega), (s.withPorts o h n p).pushKey_of_full b (not_lt.mp hk)]
    rfl

/-- A command's effect reads neither `OUT` nor the ports' bookkeeping, and only appends to `OUT`. -/
theorem effect_withPorts (i : Instr) :
    effect i (s.withPorts o h n p) = (effect i s).withPorts (o ++ emitted i s) h n p := by
  cases i with
  | crcRead | b32Byte | b32Final | statRead => rfl
  | crcInit | crcByte | b32Init | keyClr =>
    rw [emitted, List.append_nil]
    rfl
  | b32Crc =>
    rw [emitted, ← List.append_assoc]
    rfl
  | keyPush b =>
    rw [emitted, List.append_nil]
    exact pushKey_withPorts s o h n p b
  | skEnc =>
    by_cases hk : s.klen = fullKlen
    · rw [effect_skEnc_of_full hk, effect_skEnc_of_full (s := s.withPorts o h n p) hk, emitted, if_pos hk]
      rfl
    · rw [effect_skEnc_of_other hk, effect_skEnc_of_other (s := s.withPorts o h n p) hk, emitted, if_neg hk,
        List.append_nil]
      rfl

end

/-- Settles O33: the emitted bytes are `emitted i s`, or none where a halted block drops the command. -/
theorem commandsReadNeitherOutputNorPorts : Obligations.CommandsReadNeitherOutputNorPorts := by
  unfold Obligations.CommandsReadNeitherOutputNorPorts
  intro i s
  by_cases hdrop : s.cause ≠ 0 ∧ i ≠ .statRead
  · obtain ⟨hc, hi⟩ := hdrop
    refine ⟨s, [], (List.append_nil _).symm, fun o h n p => ?_⟩
    rw [List.append_nil]
    exact exec_of_halted (s := s.withPorts o h n p) hc hi
  · refine ⟨effect i s, emitted i s, effect_out i s, fun o h n p => ?_⟩
    have hexec : exec i (s.withPorts o h n p) = .next (effect i (s.withPorts o h n p)) := by
      by_cases hi : i = .statRead
      · rw [hi, exec_statRead]
      · exact exec_of_running i (show s.cause = 0 by tauto)
    exact hexec.trans (congrArg _ (effect_withPorts s o h n p i))

/-- What SK.ENC emits in a running block looks at the key buffer and `KLEN` alone. -/
theorem emitted_skEnc_congr {s t : State} (hkeybuf : t.keybuf = s.keybuf) (hklen : t.klen = s.klen) :
    emitted .skEnc t = emitted .skEnc s := by
  have hraw : t.rawKey = s.rawKey := congrArg (List.range 32).map (State.memRead_congr hkeybuf)
  simp only [emitted, hraw, hklen]

/-- Settles O34: a running block emits `emitted .skEnc`, which the three fields fix; a halted one emits nothing. -/
theorem skEncReadsTheKeyOnly : Obligations.SkEncReadsTheKeyOnly := by
  unfold Obligations.SkEncReadsTheKeyOnly
  intro kb n c
  by_cases hc : c = 0
  · refine ⟨emitted .skEnc { State.reset with keybuf := kb, klen := n }, fun s hkb hn hcause => ?_⟩
    refine ⟨effect .skEnc s, exec_of_running .skEnc (hcause.trans hc), ?_⟩
    rw [effect_out, emitted_skEnc_congr (s := { State.reset with keybuf := kb, klen := n }) hkb hn]
  · refine ⟨[], fun s _ _ hcause => ⟨s, ?_, (List.append_nil _).symm⟩⟩
    exact exec_of_halted (hcause ▸ hc) Instr.noConfusion

end Sys2Proof.Machine

/-! ## Frames (10_state section 9)

The next state of each unit's commands written as named updates of the state: what no update names is as before. -/

namespace Sys2Proof.Machine

theorem exec_crcUnit {i : Instr} {s t : State} (hi : i = .crcInit ∨ (∃ b, i = .crcByte b) ∨ i = .crcRead)
    (h : exec i s = .next t) :
    ∃ v vs, t = (s.setCrc v).emitAll vs ∧ (i ≠ .crcRead → vs = []) ∧ (i = .crcRead → v = s.crc) := by
  rcases exec_cases h with ⟨_, rfl⟩ | ⟨_, _, rfl⟩
  · rcases hi with rfl | ⟨b, rfl⟩ | rfl
    · exact ⟨crcInitial, [], (State.emitAll_nil _).symm, fun _ => rfl, nofun⟩
    · exact ⟨crcStep s.crc b, [], (State.emitAll_nil _).symm, fun _ => rfl, nofun⟩
    · exact ⟨s.crc, checksumBytes s.crc, rfl, fun hne => absurd rfl hne, fun _ => rfl⟩
  · exact ⟨t.crc, [], t.emitAll_nil.symm, fun _ => rfl, fun _ => rfl⟩

/-- Settles O37, from the normal form of the CRC unit's next states. -/
theorem crcCommandsFrame : Obligations.CrcCommandsFrame := by
  unfold Obligations.CrcCommandsFrame
  intro i s t hi h
  obtain ⟨v, vs, rfl, hout, hcrc⟩ := exec_crcUnit hi h
  refine ⟨rfl, rfl, rfl, rfl, fun _ => rfl, fun _ => rfl, rfl, rfl, rfl, fun hne => ?_, hcrc⟩
  simp [hout hne]

theorem exec_b32Unit {i : Instr} {s t : State}
    (hi : i = .b32Init ∨ (∃ b, i = .b32Byte b) ∨ i = .b32Final ∨ i = .b32Crc) (h : exec i s = .next t) :
    ∃ vs a n, t = (s.emitAll vs).setPending a n ∧ (i = .b32Init → vs = []) := by
  rcases exec_cases h with ⟨_, rfl⟩ | ⟨_, _, rfl⟩
  · rcases hi with rfl | ⟨b, rfl⟩ | rfl | rfl
    · exact ⟨[], 0, 0, by rw [State.emitAll_nil]; rfl, fun _ => rfl⟩
    · exact ⟨_, _, _, rfl, nofun⟩
    · exact ⟨_, _, _, rfl, nofun⟩
    · refine ⟨emitted .b32Crc s, (effect .b32Crc s).acc, (effect .b32Crc s).nb, ?_, nofun⟩
      simp [effect, emitted, State.absorb, State.emitAll, State.setPending]
  · exact ⟨[], t.acc, t.nb, by rw [State.emitAll_nil]; rfl, fun _ => rfl⟩

/-- Settles O38, from the normal form of the Base32 unit's next states. -/
theorem base32CommandsFrame : Obligations.Base32CommandsFrame := by
  unfold Obligations.Base32CommandsFrame
  intro i s t hi h
  obtain ⟨vs, a, n, rfl, hout⟩ := exec_b32Unit hi h
  refine ⟨rfl, rfl, rfl, fun _ => rfl, fun _ => rfl, rfl, rfl, rfl, fun hinit => ?_⟩
  simp [hout hinit]

/-- KEY.CLR and KEY.PUSH write `KLEN`, and only a push that is stored writes a byte, at index `KLEN`. -/
theorem exec_keyUnit {i : Instr} {s t : State} (hi : i = .keyClr ∨ ∃ b, i = .keyPush b) (h : exec i s = .next t) :
    (∃ v, t = s.setKlen v) ∨
    (∃ v b, t = (s.memWrite s.klen.toNat b).setKlen v ∧ i = .keyPush b ∧ s.cause = 0 ∧ s.klen.toNat < 32) := by
  rcases exec_cases h with ⟨hrun, rfl⟩ | ⟨_, _, rfl⟩
  · rcases hi with rfl | ⟨b, rfl⟩
    · exact .inl ⟨0, rfl⟩
    · have hc : s.cause = 0 := hrun.resolve_right Instr.noConfusion
      by_cases hk : s.klen.toNat < 32
      · exact .inr ⟨_, b, s.pushKey_of_room b hk, rfl, hc, hk⟩
      · exact .inl ⟨_, s.pushKey_of_full b (not_lt.mp hk)⟩
  · exact .inl ⟨t.klen, rfl⟩

/-- Settles O39: only a stored push writes, and it writes the one byte the statement leaves out. -/
theorem keyCommandsFrame : Obligations.KeyCommandsFrame := by
  unfold Obligations.KeyCommandsFrame
  intro i s t hi h
  rcases exec_keyUnit hi h with ⟨v, rfl⟩ | ⟨v, b, rfl, hpush, hc, hk⟩
  · exact ⟨rfl, rfl, rfl, rfl, rfl, rfl, rfl, rfl, fun _ _ => ⟨rfl, rfl⟩⟩
  · refine ⟨rfl, rfl, rfl, rfl, rfl, rfl, rfl, rfl, fun a ha => ?_⟩
    have hother : a ≠ s.klen.toNat := by
      rcases ha with rfl | hhalted | hfull | hother
      · cases hpush
      · exact absurd hc hhalted
      · omega
      · exact hother
    exact ⟨s.memRead_memWrite_other _ _ b hother, Memory.lookup_write_other _ _ _ b hother⟩

/-- Everything SK.ENC can do. -/
theorem exec_skEnc_cases {s t : State} (h : exec .skEnc s = .next t) :
    (s.cause ≠ 0 ∧ t = s) ∨ (s.cause = 0 ∧ s.klen = fullKlen ∧ t = s.encodeKey) ∨
    (s.cause = 0 ∧ s.klen ≠ fullKlen ∧ t = s.raise .invalidLength) := by
  rcases exec_cases h with ⟨hrun, rfl⟩ | ⟨hc, _, rfl⟩
  · have hc : s.cause = 0 := hrun.resolve_right Instr.noConfusion
    by_cases hk : s.klen = fullKlen
    · exact .inr (.inl ⟨hc, hk, effect_skEnc_of_full hk⟩)
    · exact .inr (.inr ⟨hc, hk, effect_skEnc_of_other hk⟩)
  · exact .inl ⟨hc, rfl⟩

/-- Settles O40, by what SK.ENC can do: nothing, the encoding, the fault. -/
theorem skEncAndStatReadFrame : Obligations.SkEncAndStatReadFrame := by
  unfold Obligations.SkEncAndStatReadFrame
  constructor
  · intro s t h
    rcases exec_skEnc_cases h with ⟨_, rfl⟩ | ⟨hc, hk, rfl⟩ | ⟨hc, hk, rfl⟩
    · exact ⟨fun _ => ⟨rfl, rfl⟩, rfl, rfl, rfl, fun _ => ⟨rfl, rfl, rfl, rfl, rfl⟩, fun _ => rfl⟩
    · exact ⟨fun _ => ⟨rfl, rfl⟩, rfl, rfl, rfl, fun hfail => absurd hk (hfail.resolve_left (not_not.mpr hc)),
        fun _ => rfl⟩
    · exact ⟨fun _ => ⟨rfl, rfl⟩, rfl, rfl, rfl, fun _ => ⟨rfl, rfl, rfl, rfl, rfl⟩,
        fun hok => absurd (hok.resolve_left (not_not.mpr hc)) hk⟩
  · intro s t h
    rw [exec_statRead] at h
    cases h
    exact ⟨rfl, rfl, rfl, rfl, rfl, fun _ => ⟨rfl, rfl⟩, rfl, rfl, rfl⟩

end Sys2Proof.Machine

/-! ## Sequences of commands: what `CRC`, `NB` and the key buffer hold -/

namespace Sys2Proof.Machine

/-! ### `CRC` (10_state R21, 70_reset_and_hazards R174) -/

theorem crcOperands_cons (i : Instr) (is : List Instr) :
    crcOperands (i :: is) = crcOperands [i] ++ crcOperands is := by
  cases i <;> rfl

theorem effects_crc {is : List Instr} (s : State) (h : ∀ i ∈ is, i ≠ .crcInit ∧ i ≠ .skEnc) :
    (effects is s).crc = (crcOperands is).foldl crcStep s.crc := by
  induction is generalizing s with
  | nil => rfl
  | cons i is ih =>
    obtain ⟨⟨hinit, henc⟩, hrest⟩ := List.forall_mem_cons.mp h
    rw [effects_cons, ih _ hrest, effect_crc s hinit henc, crcOperands_cons i is, List.foldl_append]

/-- Settles O44, by induction on the commands (`effects_crc`). -/
theorem crcHoldsTheBytesGiven : Obligations.CrcHoldsTheBytesGiven := by
  unfold Obligations.CrcHoldsTheBytesGiven
  intro is s hs h
  have henc : .skEnc ∉ is := fun hmem => (h _ hmem).2 rfl
  have henc' : .skEnc ∉ .crcInit :: is := by simpa using henc
  refine ⟨⟨effects is s, execAll_of_running hs henc, ?_, effects_crc s h⟩,
    ⟨effects (.crcInit :: is) s, execAll_of_running hs henc', ?_, effects_crc (s.setCrc crcInitial) h⟩⟩
  · rw [effects_cause s henc, hs]
  · rw [effects_cause s henc', hs]

/-! ### `NB` (10_state R23) -/

/-- A byte adds eight pending bits and the groups of five cut off leave the count (R102). -/
theorem b32Absorb_nb_toNat (a : BitVec 4) (n : BitVec 3) (b : Byte) :
    (b32Absorb a n b).nb.toNat = (n.toNat + 8) % 5 := by
  have hrest := cutGroups_rest 3 ((a.setWidth 12 <<< 8) ||| b.setWidth 12) (n.toNat + 8)
    (by have := n.isLt; omega)
  have hcount := cutGroups_count 3 ((a.setWidth 12 <<< 8) ||| b.setWidth 12) (n.toNat + 8)
  rw [b32Absorb, BitVec.toNat_ofNat]
  omega

theorem effects_b32Bytes_nb (m : List Byte) (s : State) (h : s.nb.toNat < 5) :
    (effects (m.map Instr.b32Byte) s).nb.toNat = (s.nb.toNat + 8 * m.length) % 5 := by
  induction m generalizing s with
  | nil => exact (Nat.mod_eq_of_lt h).symm
  | cons b m ih =>
    have hnb : (effect (.b32Byte b) s).nb.toNat = (s.nb.toNat + 8) % 5 := b32Absorb_nb_toNat s.acc s.nb b
    rw [List.map_cons, effects_cons, ih _ (by omega), hnb, List.length_cons]
    omega

/-- Settles O48, by induction on the bytes (`effects_b32Bytes_nb`). -/
theorem pendingCountCycle : Obligations.PendingCountCycle := by
  unfold Obligations.PendingCountCycle
  intro m s hs
  refine ⟨effects (.b32Init :: m.map Instr.b32Byte) s, execAll_of_running hs (by simp), ?_⟩
  rw [effects_cons, effects_b32Bytes_nb m _ (by simp [effect])]
  simp [effect]

/-! ### The key buffer (10_state R25, R26) -/

/-- `mem` is the buffer `old` after the bytes `m` have been loaded into it. -/
def Memory.HoldsLoad (old : Memory) (m : List Byte) (mem : Memory) : Prop :=
  (∀ j < 32, j < m.length → mem.lookup j = m[j]?) ∧ ∀ j, m.length ≤ j ∨ 32 ≤ j → mem.lookup j = old.lookup j

theorem Memory.holdsLoad_nil (old : Memory) : Memory.HoldsLoad old [] old := ⟨nofun, fun _ _ => rfl⟩

section
variable {old mem : Memory} {m : List Byte} (b : Byte) (h : Memory.HoldsLoad old m mem)
include h

/-- The next byte is stored where there is room. -/
theorem Memory.holdsLoad_write (hroom : m.length < 32) :
    Memory.HoldsLoad old (m ++ [b]) (mem.write m.length b) := by
  obtain ⟨hloaded, hother⟩ := h
  simp only [Memory.HoldsLoad, List.length_append, List.length_singleton]
  refine ⟨fun j hj hjm => ?_, fun j hj => ?_⟩
  · by_cases hjlast : j = m.length
    · rw [hjlast, Memory.lookup_write_same, List.getElem?_concat_length]
    · rw [Memory.lookup_write_other _ _ _ _ hjlast, hloaded j hj (by omega), List.getElem?_append_left (by omega)]
  · rw [Memory.lookup_write_other _ _ _ _ (by omega), hother j (by omega)]

/-- From 32 bytes on the next byte is dropped. -/
theorem Memory.holdsLoad_drop (hfull : 32 ≤ m.length) : Memory.HoldsLoad old (m ++ [b]) mem := by
  obtain ⟨hloaded, hother⟩ := h
  refine ⟨fun j hj _ => ?_, fun j hj => hother j ?_⟩
  · rw [hloaded j hj (by omega), List.getElem?_append_left (by omega)]
  · rw [List.length_append, List.length_singleton] at hj
    omega

end

/-- `s` after KEY.LOAD `m`, the buffer being `mem`: the count saturates at 33. -/
def State.afterLoad (s : State) (m : List Byte) (mem : Memory) : State :=
  { s with keybuf := mem, klen := BitVec.ofNat 6 (min m.length 33) }

theorem State.afterLoad_klen_toNat (s : State) (m : List Byte) (mem : Memory) :
    (s.afterLoad m mem).klen.toNat = min m.length 33 := by
  rw [State.afterLoad, BitVec.toNat_ofNat]
  omega

/-- One push more is the load of one byte more. -/
theorem State.pushKey_afterLoad (s : State) {m : List Byte} {mem : Memory} (b : Byte)
    (h : Memory.HoldsLoad s.keybuf m mem) :
    ∃ mem', (s.afterLoad m mem).pushKey b = s.afterLoad (m ++ [b]) mem' ∧
      Memory.HoldsLoad s.keybuf (m ++ [b]) mem' := by
  have hklen := s.afterLoad_klen_toNat m mem
  by_cases hroom : m.length < 32
  · have hindex : (s.afterLoad m mem).klen.toNat = m.length := by omega
    refine ⟨mem.write m.length b, ?_, Memory.holdsLoad_write b h hroom⟩
    have hsucc : (s.afterLoad m mem).klen + 1 = BitVec.ofNat 6 (min (m ++ [b]).length 33) := by
      apply BitVec.eq_of_toNat_eq
      rw [klen_succ_toNat _ (by omega), BitVec.toNat_ofNat, List.length_append, List.length_singleton]
      omega
    rw [State.pushKey_of_room _ b (by omega), hindex, hsucc]
    rfl
  · refine ⟨mem, ?_, Memory.holdsLoad_drop b h (by omega)⟩
    have hfull : min (m ++ [b]).length 33 = 33 := by
      rw [List.length_append, List.length_singleton]
      omega
    rw [State.pushKey_of_full _ b (by omega), State.afterLoad, State.afterLoad, hfull]
    rfl

/-- KEY.LOAD one byte at a time: the bytes loaded so far are the load of the front part. -/
theorem effects_keyLoad (m : List Byte) (s : State) :
    ∃ mem, effects (expand (.keyLoad m)) s = s.afterLoad m mem ∧ Memory.HoldsLoad s.keybuf m mem := by
  induction m using List.reverseRecOn with
  | nil => exact ⟨s.keybuf, rfl, Memory.holdsLoad_nil _⟩
  | append_singleton m b ih =>
    obtain ⟨mem, heff, hmem⟩ := ih
    have hlast : effects (expand (.keyLoad (m ++ [b]))) s = (effects (expand (.keyLoad m)) s).pushKey b := by
      simp [expand, effects_append, effect]
    rw [hlast, heff]
    exact s.pushKey_afterLoad b hmem

/-- Settles O56, by induction on the bytes loaded so far (`effects_keyLoad`). -/
theorem keyLoadFillsTheBuffer : Obligations.KeyLoadFillsTheBuffer := by
  unfold Obligations.KeyLoadFillsTheBuffer
  intro m s hs
  obtain ⟨mem, heff, hloaded, hother⟩ := effects_keyLoad m s
  refine ⟨mem, ?_, hloaded, hother⟩
  rw [execAll_of_running hs (by simp [expand]), heff]
  rfl

end Sys2Proof.Machine

/-! ## The ports: waiting, and the delivery of `OUT` (20_memory R41, R42) -/

namespace Sys2Proof.Machine

/-- Settles O10. -/
theorem waitingChangesNothing : Obligations.WaitingChangesNothing := by
  unfold Obligations.WaitingChangesNothing
  exact fun _ => step_waiting

/-- A byte is offered exactly where `OUT` holds more bytes than were taken. -/
theorem State.offered_eq_none_iff (s : State) : s.offered = none ↔ s.out.length ≤ s.taken :=
  List.getElem?_eq_none_iff

theorem State.takeByte_of_offered {s : State} {b : Byte} (h : s.offered = some b) :
    s.takeByte = { s with taken := s.taken + 1 } := by
  obtain ⟨hlt, _⟩ := List.getElem?_eq_some_iff.mp h
  rw [State.takeByte, if_pos hlt]

theorem State.takeByte_of_not_offered {s : State} (h : s.offered = none) : s.takeByte = s := by
  rw [State.takeByte, if_neg (not_lt.mpr (s.offered_eq_none_iff.mp h))]

/-- The byte offered is the next one delivered. -/
theorem State.delivered_takeByte {s : State} {b : Byte} (h : s.offered = some b) :
    s.takeByte.delivered = s.delivered ++ [b] := by
  have hnext : s.out[s.taken]? = some b := h
  rw [State.takeByte_of_offered h, State.delivered, State.delivered, List.take_add_one, hnext, Option.toList_some]

/-- Settles O11, by whether the port offers a byte. -/
theorem outputPortDeliversInOrder : Obligations.OutputPortDeliversInOrder := by
  unfold Obligations.OutputPortDeliversInOrder
  intro s later hh
  rw [step_takeByte hh]
  refine ⟨fun b hb => ?_, fun hnone => ?_⟩
  · have hoffered : (s.setHost later).offered = some b := hb
    refine ⟨congrArg _ (State.takeByte_of_offered hoffered), fun t ht => ?_⟩
    cases ht
    exact State.delivered_takeByte hoffered
  · exact congrArg _ (State.takeByte_of_not_offered (s := s.setHost later) hnone)

end Sys2Proof.Machine

/-! ## How many bytes a command emits (20_memory R45) -/

namespace Sys2Proof.Machine

/-! ### The lengths of Base32 texts (R102 to R104, R110) -/

/-- The old pending bits and the byte's eight end up in characters or stay pending. -/
theorem b32Absorb_count (a : BitVec 4) (n : BitVec 3) (b : Byte) :
    5 * (b32Absorb a n b).chars.length + (b32Absorb a n b).nb.toNat = n.toNat + 8 := by
  have hcount := cutGroups_count 3 ((a.setWidth 12 <<< 8) ||| b.setWidth 12) (n.toNat + 8)
  have hrest := cutGroups_rest 3 ((a.setWidth 12 <<< 8) ||| b.setWidth 12) (n.toNat + 8)
    (by have := n.isLt; omega)
  simp only [b32Absorb, BitVec.toNat_ofNat]
  omega

theorem b32Absorb_chars_length (a : BitVec 4) (n : BitVec 3) (b : Byte) :
    (b32Absorb a n b).chars.length = (n.toNat + 8) / 5 := by
  have hcount := b32Absorb_count a n b
  rw [b32Absorb_nb_toNat] at hcount
  omega

theorem b32Flush_length (a : BitVec 4) (n : BitVec 3) : (b32Flush a n).length = if n = 0 then 0 else 1 := by
  unfold b32Flush
  split <;> rfl

/-- Every bit fed stands in a character or is pending. -/
theorem foldl_feed_count (m : List Byte) (r : Absorbed) :
    5 * (m.foldl Absorbed.feed r).chars.length + (m.foldl Absorbed.feed r).nb.toNat =
      5 * r.chars.length + r.nb.toNat + 8 * m.length := by
  induction m generalizing r with
  | nil => rfl
  | cons b m ih =>
    have hstep := b32Absorb_count r.acc r.nb b
    rw [List.foldl_cons, ih, List.length_cons]
    simp only [Absorbed.feed, List.length_append]
    omega

theorem foldl_feed_nb_toNat (m : List Byte) (r : Absorbed) (h : r.nb.toNat < 5) :
    (m.foldl Absorbed.feed r).nb.toNat = (r.nb.toNat + 8 * m.length) % 5 := by
  induction m generalizing r with
  | nil => exact (Nat.mod_eq_of_lt h).symm
  | cons b m ih =>
    have hstep : (r.feed b).nb.toNat = (r.nb.toNat + 8) % 5 := b32Absorb_nb_toNat r.acc r.nb b
    rw [List.foldl_cons, ih _ (by omega), hstep, List.length_cons]
    omega

/-- A text has one character for each five bits of its message, rounded up (R110). -/
theorem b32_length (m : List Byte) : (b32 m).length = (8 * m.length + 4) / 5 := by
  have hcount : 5 * (b32Feed 0 0 m).chars.length + (b32Feed 0 0 m).nb.toNat = 0 + 0 + 8 * m.length :=
    foldl_feed_count m ⟨0, 0, []⟩
  have hpending : (b32Feed 0 0 m).nb.toNat = (0 + 8 * m.length) % 5 := foldl_feed_nb_toNat m ⟨0, 0, []⟩ (by decide)
  rw [b32, List.length_append, b32Flush_length]
  by_cases hnone : (b32Feed 0 0 m).nb = 0
  · have : (b32Feed 0 0 m).nb.toNat = 0 := congrArg BitVec.toNat hnone
    rw [if_pos hnone]
    omega
  · have : (b32Feed 0 0 m).nb.toNat ≠ 0 := fun h => hnone (BitVec.eq_of_toNat_eq h)
    rw [if_neg hnone]
    omega

theorem fullPayload_length (k : List Byte) : (fullPayload k).length = k.length + 3 := by
  simp [fullPayload, versionedPayload, checksum, checksumBytes]

theorem State.rawKey_length (s : State) : s.rawKey.length = 32 := by
  simp [State.rawKey]

theorem State.encodedAddress_rawKey_length (s : State) : (encodedAddress s.rawKey).length = 56 := by
  rw [encodedAddress, b32_length, fullPayload_length, State.rawKey_length]

/-! ### The counts, command by command -/

theorem emitted_b32Byte_length (b : Byte) {s : State} (h : s.PendingLegal) :
    (emitted (.b32Byte b) s).length = if s.nb = 0 ∨ s.nb = 1 then 1 else 2 := by
  have hnb : s.nb = 0 ∨ s.nb = 1 ↔ s.nb.toNat ≤ 1 := by
    rw [← BitVec.toNat_inj, ← BitVec.toNat_inj]
    exact Nat.le_one_iff_eq_zero_or_eq_one.symm
  have hlen : (emitted (.b32Byte b) s).length = (s.nb.toNat + 8) / 5 := b32Absorb_chars_length ..
  obtain ⟨hle, _⟩ := h
  simp only [hlen, hnb]
  split <;> omega

/-- The checksum's two bytes add sixteen bits to the pending ones. -/
theorem emitted_b32Crc_length {s : State} (h : s.PendingLegal) :
    (emitted .b32Crc s).length = if s.nb.toNat ≤ 3 then 3 else 4 := by
  obtain ⟨hle, _⟩ := h
  rw [emitted, List.length_append, b32Absorb_chars_length, b32Absorb_chars_length, State.absorb_nb, b32Absorb_nb_toNat]
  split <;> omega

theorem emitted_skEnc_length (s : State) : (emitted .skEnc s).length = if s.klen = 32 then 56 else 0 := by
  by_cases hk : s.klen = 32
  · rw [if_pos hk, emitted, fullKlen, if_pos hk, State.encodedAddress_rawKey_length]
  · rw [if_neg hk, emitted, fullKlen, if_neg hk, List.length_nil]

/-- Settles O32, by the length of what each command emits. -/
theorem emittedByteCounts : Obligations.EmittedByteCounts := by
  unfold Obligations.EmittedByteCounts
  intro i s hs hpending
  refine ⟨effect i s, exec_of_running i hs, ?_⟩
  rw [effect_out, List.length_append, Nat.add_left_cancel_iff]
  cases i with
  | b32Byte b => exact emitted_b32Byte_length b hpending
  | b32Final => exact b32Flush_length s.acc s.nb
  | b32Crc => exact emitted_b32Crc_length hpending
  | skEnc => exact emitted_skEnc_length s
  | crcRead | statRead | crcInit | crcByte | b32Init | keyClr | keyPush => rfl

end Sys2Proof.Machine

/-! ## Encoding and decoding (30_encoding R60 to R69)

A word is its two fields, so every fact about a word is a fact about an opcode byte and an operand byte. The decoder and the
opcode map are both brought to the same two lists of opcodes. -/

namespace Sys2Proof

/-! ### The two fields of a word (R60) -/

@[simp] theorem opcField_assemble (opc imm : Byte) : opcField (assemble opc imm) = opc :=
  BitVec.extractLsb'_append_eq_left

@[simp] theorem immField_assemble (opc imm : Byte) : immField (assemble opc imm) = imm :=
  BitVec.extractLsb'_append_eq_right

@[simp] theorem assemble_fields (w : Word) : assemble (opcField w) (immField w) = w :=
  (BitVec.extractLsb'_append_extractLsb'_eq_extractLsb' rfl).trans BitVec.extractLsb'_eq_self

theorem assemble_toNat (opc imm : Byte) : (assemble opc imm).toNat = 256 * opc.toNat + imm.toNat := by
  rw [assemble, BitVec.toNat_append, ← Nat.shiftLeft_add_eq_or_of_lt imm.isLt, Nat.shiftLeft_eq]
  omega

theorem word_eq_iff {w v : Word} : w = v ↔ opcField w = opcField v ∧ immField w = immField v := by
  refine ⟨fun h => h ▸ ⟨rfl, rfl⟩, fun ⟨hopc, himm⟩ => ?_⟩
  rw [← assemble_fields w, hopc, himm, assemble_fields]

@[simp] theorem opcField_and (w v : Word) : opcField (w &&& v) = opcField w &&& opcField v := BitVec.extractLsb'_and

@[simp] theorem immField_and (w v : Word) : immField (w &&& v) = immField w &&& immField v := BitVec.extractLsb'_and

/-- A mask byte of ones keeps the byte. -/
theorem and_0xFF (b : Byte) : b &&& 0xFF = b := BitVec.and_allOnes

/-! ### The opcodes with and without operand (R61, R64) -/

/-- The three opcodes whose `IMM8` is an operand. -/
def operandOpcodes : List Byte := [0x11, 0x21, 0x31]

/-- The eight opcodes whose `IMM8` is reserved. -/
def plainOpcodes : List Byte := [0x10, 0x12, 0x20, 0x22, 0x23, 0x30, 0x32, 0x40]

/-- The eleven opcodes, in the order of the opcode map. -/
def opcodes : List Byte := opcodeMap.map fun row => opcField row.pattern

theorem mem_opcodes_iff {opc : Byte} : opc ∈ opcodes ↔ opc ∈ operandOpcodes ∨ opc ∈ plainOpcodes := by
  have hperm : opcodes.Perm (operandOpcodes ++ plainOpcodes) := by decide
  rw [hperm.mem_iff, List.mem_append]

theorem not_mem_plainOpcodes : ∀ opc ∈ operandOpcodes, opc ∉ plainOpcodes := by decide

theorem operandCommand_eq_none_iff {opc imm : Byte} : operandCommand opc imm = none ↔ opc ∉ operandOpcodes := by
  simp [operandCommand, operandOpcodes, ite_eq_iff]

theorem plainCommand_eq_none_iff {opc : Byte} : plainCommand opc = none ↔ opc ∉ plainOpcodes := by
  simp [plainCommand, plainOpcodes, ite_eq_iff]

/-- The operand bits that a word must leave zero are zero. -/
def ReservedZero (w : Word) : Prop := opcField w ∈ plainOpcodes → immField w = 0

/-! ### What the decoder answers (R69) -/

section
variable {w : Word} {i : Instr}

theorem decode_of_operandCommand (h : operandCommand (opcField w) (immField w) = some i) : decode w = .command i := by
  simp [decode, h]

theorem decode_of_plainCommand (hop : operandCommand (opcField w) (immField w) = none)
    (h : plainCommand (opcField w) = some i) :
    decode w = if immField w = 0 then .command i else .illegal (.reservedOperand (opcField w) (immField w)) := by
  simp [decode, hop, h]

theorem decode_of_no_command (hop : operandCommand (opcField w) (immField w) = none)
    (h : plainCommand (opcField w) = none) : decode w = .illegal (.unassignedOpcode (opcField w)) := by
  simp [decode, hop, h]

end

/-- The decoder's three answers, and the words that get each. -/
theorem decode_cases (w : Word) :
    (opcField w ∉ opcodes ∧ decode w = .illegal (.unassignedOpcode (opcField w))) ∨
    (opcField w ∈ plainOpcodes ∧ immField w ≠ 0 ∧
      decode w = .illegal (.reservedOperand (opcField w) (immField w))) ∨
    (opcField w ∈ opcodes ∧ ReservedZero w ∧ ∃ i, decode w = .command i) := by
  rcases hop : operandCommand (opcField w) (immField w) with _ | i
  · rcases hplain : plainCommand (opcField w) with _ | i
    · refine .inl ⟨?_, decode_of_no_command hop hplain⟩
      rw [mem_opcodes_iff, not_or]
      exact ⟨operandCommand_eq_none_iff.mp hop, plainCommand_eq_none_iff.mp hplain⟩
    · have hmem : opcField w ∈ plainOpcodes := by
        by_contra hnot
        simp [plainCommand_eq_none_iff.mpr hnot] at hplain
      have hd := decode_of_plainCommand hop hplain
      by_cases himm : immField w = 0
      · exact .inr (.inr ⟨mem_opcodes_iff.mpr (.inr hmem), fun _ => himm, i, hd.trans (if_pos himm)⟩)
      · exact .inr (.inl ⟨hmem, himm, hd.trans (if_neg himm)⟩)
  · have hmem : opcField w ∈ operandOpcodes := by
      by_contra hnot
      simp [operandCommand_eq_none_iff.mpr hnot] at hop
    refine .inr (.inr ⟨mem_opcodes_iff.mpr (.inl hmem), fun hplain => ?_, i, decode_of_operandCommand hop⟩)
    exact absurd hplain (not_mem_plainOpcodes _ hmem)

/-- The command of a word: the operand commands come before the test of the reserved byte. -/
theorem command?_decode (w : Word) :
    (decode w).command? = (operandCommand (opcField w) (immField w)).or
      (if immField w ≠ 0 then none else plainCommand (opcField w)) := by
  rcases hop : operandCommand (opcField w) (immField w) with _ | i
  · rcases hplain : plainCommand (opcField w) with _ | i
    · simp [decode_of_no_command hop hplain, Decoded.command?]
    · rw [decode_of_plainCommand hop hplain]
      by_cases himm : immField w = 0
      · rw [if_pos himm, if_neg (not_ne_iff.mpr himm)]
        rfl
      · rw [if_neg himm, if_pos himm]
        rfl
  · rw [decode_of_operandCommand hop]
    rfl

/-! ### Decode and encode are inverse (R69) -/

theorem encode_of_operandCommand {opc imm : Byte} {i : Instr} (h : operandCommand opc imm = some i) :
    encode i = assemble opc imm := by
  unfold operandCommand at h
  split_ifs at h with hopc hopc hopc <;> cases h <;> rw [hopc] <;> rfl

theorem encode_of_plainCommand {opc : Byte} {i : Instr} (h : plainCommand opc = some i) :
    encode i = assemble opc 0 := by
  unfold plainCommand at h
  split_ifs at h with hopc hopc hopc hopc hopc hopc hopc hopc <;> cases h <;> rw [hopc] <;> rfl

theorem decode_encode (i : Instr) : decode (encode i) = .command i := by
  cases i with
  | crcByte b | b32Byte b | keyPush b => exact decode_of_operandCommand (by simp [encode, operandCommand])
  | _ => rfl

theorem eq_encode_of_decode {w : Word} {i : Instr} (h : decode w = .command i) : w = encode i := by
  have hcommand := command?_decode w
  rw [h, Decoded.command?, eq_comm, Option.or_eq_some_iff] at hcommand
  rcases hcommand with hop | ⟨_, hplain⟩
  · rw [encode_of_operandCommand hop, assemble_fields]
  · split_ifs at hplain with himm
    rw [encode_of_plainCommand hplain, ← not_ne_iff.mp himm, assemble_fields]

/-- Settles O1: the command of a word as R69 tests for it is `command?_decode` written out. -/
theorem decodeInvertsEncode : Obligations.DecodeInvertsEncode := by
  unfold Obligations.DecodeInvertsEncode
  refine ⟨decode_encode, fun w i => eq_encode_of_decode, fun b => ?_, fun w => ?_⟩
  · apply BitVec.eq_of_toNat_eq
    rw [encode, assemble_toNat, BitVec.toNat_add, BitVec.toNat_setWidth]
    have hb := b.isLt
    change 256 * 17 + b.toNat = (4352 + b.toNat % 2 ^ 16) % 2 ^ 16
    omega
  · rw [command?_decode]
    unfold operandCommand
    rw [apply_ite (Option.or · _), apply_ite (Option.or · _), apply_ite (Option.or · _)]
    rfl

/-! ### The opcode map (R63, R64) -/

/-- A row's mask looks at the whole opcode, and at the operand exactly where it is reserved. -/
theorem opcodeMap_masks : ∀ row ∈ opcodeMap, opcField row.mask = 0xFF ∧ immField row.pattern = 0 ∧
    immField row.mask = if opcField row.pattern ∈ plainOpcodes then 0xFF else 0 := by
  decide

theorem and_imm_mask_iff {row : OpcodeRow} (hrow : row ∈ opcodeMap) {w : Word}
    (hopc : opcField w = opcField row.pattern) : immField w &&& immField row.mask = 0 ↔ ReservedZero w := by
  obtain ⟨_, _, himm⟩ := opcodeMap_masks row hrow
  rw [himm, ← hopc, ReservedZero]
  split_ifs with hplain
  · rw [and_0xFF, forall_prop_of_true hplain]
  · simp [hplain]

/-- A row selects the words of its opcode whose reserved bits are zero. -/
theorem selects_iff {row : OpcodeRow} (hrow : row ∈ opcodeMap) (w : Word) :
    row.selects w = true ↔ opcField w = opcField row.pattern ∧ ReservedZero w := by
  obtain ⟨hopc, hpattern, _⟩ := opcodeMap_masks row hrow
  rw [OpcodeRow.selects, beq_iff_eq, word_eq_iff, opcField_and, immField_and, hopc, and_0xFF, hpattern]
  exact and_congr_right fun h => and_imm_mask_iff hrow h

theorem sameOpcode_iff (w v : Word) : w &&& 0xFF00 = v &&& 0xFF00 ↔ opcField w = opcField v := by
  have hopc : opcField 0xFF00 = 0xFF := by decide
  have himm : immField 0xFF00 = 0 := by decide
  rw [word_eq_iff, opcField_and, opcField_and, immField_and, immField_and, hopc, himm, and_0xFF, and_0xFF]
  simp

theorem opcodeAssigned_iff (w : Word) : opcodeAssigned w = true ↔ opcField w ∈ opcodes := by
  simp only [opcodeAssigned, List.any_eq_true, beq_iff_eq, sameOpcode_iff, opcodes, List.mem_map,
    eq_comm (a := opcField w)]

/-- The part of the second check that looks at one row. -/
theorem reservedBitsZero_iff {row : OpcodeRow} (hrow : row ∈ opcodeMap) {w : Word}
    (hopc : opcField w = opcField row.pattern) : w &&& row.mask &&& 0x00FF = 0 ↔ ReservedZero w := by
  have hopcMask : opcField 0x00FF = 0 := by decide
  have himmMask : immField 0x00FF = 0xFF := by decide
  rw [word_eq_iff, opcField_and, immField_and, immField_and, hopcMask, himmMask, and_0xFF]
  exact (and_iff_right BitVec.and_zero).trans (and_imm_mask_iff hrow hopc)

theorem reservedOperandZero_iff (w : Word) : reservedOperandZero w = true ↔ ReservedZero w := by
  simp only [reservedOperandZero, List.all_eq_true, Bool.or_eq_true, bne_iff_ne, beq_iff_eq, ne_eq, sameOpcode_iff,
    ← imp_iff_not_or]
  constructor
  · intro h hplain
    obtain ⟨row, hrow, hopc⟩ := List.mem_map.mp (mem_opcodes_iff.mpr (.inr hplain))
    exact (reservedBitsZero_iff hrow hopc.symm).mp (h row hrow hopc.symm) hplain
  · exact fun h row hrow hopc => (reservedBitsZero_iff hrow hopc).mpr h

theorem legalWord_iff (w : Word) : legalWord w = true ↔ opcField w ∈ opcodes ∧ ReservedZero w := by
  rw [legalWord, List.any_eq_true, opcodes, List.mem_map]
  constructor
  · rintro ⟨row, hrow, hsel⟩
    obtain ⟨hopc, hzero⟩ := (selects_iff hrow w).mp hsel
    exact ⟨⟨row, hrow, hopc.symm⟩, hzero⟩
  · rintro ⟨⟨row, hrow, hopc⟩, hzero⟩
    exact ⟨row, hrow, (selects_iff hrow w).mpr ⟨hopc.symm, hzero⟩⟩

theorem decodes_iff_legalWord (w : Word) : (∃ i, decode w = .command i) ↔ legalWord w = true := by
  rw [legalWord_iff]
  rcases decode_cases w with ⟨hopc, hd⟩ | ⟨hplain, himm, hd⟩ | ⟨hopc, hzero, hd⟩
  · simp [hd, hopc]
  · have hnot : ¬ ReservedZero w := fun h => himm (h hplain)
    simp [hd, hnot]
  · exact iff_of_true hd ⟨hopc, hzero⟩

theorem opcodes_nodup : opcodes.Nodup := by decide

/-- No word selects two rows: the rows differ in their opcodes. -/
theorem row_eq_of_selects {r q : OpcodeRow} (hr : r ∈ opcodeMap) (hq : q ∈ opcodeMap) {w : Word}
    (hrw : r.selects w = true) (hqw : q.selects w = true) : r = q := by
  obtain ⟨hropc, _⟩ := (selects_iff hr w).mp hrw
  obtain ⟨hqopc, _⟩ := (selects_iff hq w).mp hqw
  exact List.inj_on_of_nodup_map opcodes_nodup hr hq (hropc.symm.trans hqopc)

theorem opcodeMap_pairwise_disjoint :
    opcodeMap.Pairwise (fun r q => ∀ w : Word, ¬ (r.selects w = true ∧ q.selects w = true)) :=
  (List.Nodup.of_map _ opcodes_nodup).imp_of_mem fun hr hq hne _ ⟨hrw, hqw⟩ => hne (row_eq_of_selects hr hq hrw hqw)

/-- The word of a command selects the row of its mnemonic. -/
theorem exists_row_of_mnemonic (i : Instr) :
    ∃ row ∈ opcodeMap, row.selects (encode i) = true ∧ row.mnemonic = Machine.mnemonicOf i := by
  cases i with
  | crcByte b | b32Byte b | keyPush b =>
    revert b
    decide
  | _ => decide

/-! ### How many words of each kind (R63, R64) -/

/-- The words with the opcode in `O` and the operand byte in `I`. -/
def wordsWith (O I : Finset Byte) : Finset Word :=
  Finset.univ.filter fun w => opcField w ∈ O ∧ immField w ∈ I

@[simp] theorem mem_wordsWith {O I : Finset Byte} {w : Word} :
    w ∈ wordsWith O I ↔ opcField w ∈ O ∧ immField w ∈ I := by
  simp [wordsWith]

/-- The fields pair off these words with the pairs of bytes. -/
theorem card_wordsWith (O I : Finset Byte) : (wordsWith O I).card = O.card * I.card := by
  rw [← Finset.card_product]
  refine Finset.card_nbij' (fun w => (opcField w, immField w)) (fun p => assemble p.1 p.2) ?_ ?_ ?_ ?_
  · intro w hw
    simpa using hw
  · intro p hp
    simpa using hp
  · intro w _
    exact assemble_fields w
  · intro p _
    simp

theorem card_byte : Fintype.card Byte = 256 := FinEnum.card_eq_fintypeCard.symm.trans (FinEnum.card_bitVec 8)

theorem unassigned_eq_wordsWith :
    (Finset.univ.filter fun w : Word => opcodeAssigned w = false) = wordsWith opcodes.toFinsetᶜ Finset.univ := by
  ext w
  simp [← opcodeAssigned_iff]

theorem reserved_eq_wordsWith :
    (Finset.univ.filter fun w : Word => opcodeAssigned w = true ∧ reservedOperandZero w = false) =
      wordsWith plainOpcodes.toFinset {0}ᶜ := by
  ext w
  have hassigned (h : opcField w ∈ plainOpcodes) : opcField w ∈ opcodes := mem_opcodes_iff.mpr (.inr h)
  simp only [Finset.mem_filter, Finset.mem_univ, true_and, ← Bool.not_eq_true, opcodeAssigned_iff,
    reservedOperandZero_iff, ReservedZero, mem_wordsWith, List.mem_toFinset, Finset.mem_compl, Finset.mem_singleton]
  tauto

theorem legal_eq_wordsWith :
    (Finset.univ.filter fun w : Word => legalWord w = true) =
      wordsWith operandOpcodes.toFinset Finset.univ ∪ wordsWith plainOpcodes.toFinset {0} := by
  ext w
  have hdisjoint := not_mem_plainOpcodes (opcField w)
  simp only [Finset.mem_filter, Finset.mem_univ, true_and, and_true, legalWord_iff, mem_opcodes_iff, ReservedZero,
    Finset.mem_union, mem_wordsWith, List.mem_toFinset, Finset.mem_singleton]
  tauto

theorem card_unassigned : (Finset.univ.filter fun w : Word => opcodeAssigned w = false).card = 62720 := by
  have hcard : opcodes.toFinset.card = 11 := by decide
  rw [unassigned_eq_wordsWith, card_wordsWith, Finset.card_compl, hcard, Finset.card_univ, card_byte]

theorem card_reserved :
    (Finset.univ.filter fun w : Word => opcodeAssigned w = true ∧ reservedOperandZero w = false).card = 2040 := by
  have hcard : plainOpcodes.toFinset.card = 8 := by decide
  rw [reserved_eq_wordsWith, card_wordsWith, Finset.card_compl, hcard, Finset.card_singleton, card_byte]

theorem card_legal : (Finset.univ.filter fun w : Word => legalWord w = true).card = 776 := by
  have hoperand : operandOpcodes.toFinset.card = 3 := by decide
  have hplain : plainOpcodes.toFinset.card = 8 := by decide
  have hdisjoint : Disjoint (wordsWith operandOpcodes.toFinset Finset.univ) (wordsWith plainOpcodes.toFinset {0}) := by
    refine Finset.disjoint_filter.mpr fun w _ ⟨hw, _⟩ ⟨hw', _⟩ => ?_
    exact not_mem_plainOpcodes _ (List.mem_toFinset.mp hw) (List.mem_toFinset.mp hw')
  rw [legal_eq_wordsWith, Finset.card_union_of_disjoint hdisjoint, card_wordsWith, card_wordsWith, hoperand, hplain,
    Finset.card_univ, card_byte, Finset.card_singleton]

/-- Settles O2: the row that a command's word selects is the only one. -/
theorem decoderFollowsTheOpcodeMap : Obligations.DecoderFollowsTheOpcodeMap := by
  unfold Obligations.DecoderFollowsTheOpcodeMap
  refine ⟨decodes_iff_legalWord, fun w i hd row hrow hsel => ?_, opcodeMap_pairwise_disjoint, card_legal⟩
  obtain ⟨r, hr, hrsel, hmnemonic⟩ := exists_row_of_mnemonic i
  rw [eq_encode_of_decode hd] at hsel
  rw [row_eq_of_selects hrow hr hsel hrsel, hmnemonic]

/-! ### The illegal words (R64) -/

theorem decode_unassigned_iff (w : Word) :
    (∃ opc, decode w = .illegal (.unassignedOpcode opc)) ↔ opcField w ∉ opcodes := by
  rcases decode_cases w with ⟨hopc, hd⟩ | ⟨hplain, _, hd⟩ | ⟨hopc, _, i, hd⟩
  · simp [hd, hopc]
  · simp [hd, mem_opcodes_iff, hplain]
  · simp [hd, hopc]

theorem decode_reserved_iff (w : Word) :
    (∃ opc imm, decode w = .illegal (.reservedOperand opc imm)) ↔ opcField w ∈ plainOpcodes ∧ immField w ≠ 0 := by
  rcases decode_cases w with ⟨hopc, hd⟩ | ⟨hplain, himm, hd⟩ | ⟨_, hzero, i, hd⟩
  · rw [mem_opcodes_iff, not_or] at hopc
    simp [hd, hopc]
  · exact iff_of_true ⟨_, _, hd⟩ ⟨hplain, himm⟩
  · exact iff_of_false (by simp [hd]) fun ⟨hplain, himm⟩ => himm (hzero hplain)

theorem wordWellFormed_iff (w : Word) : wordWellFormed w = true ↔ legalWord w = true := by
  rw [wordWellFormed, Bool.and_eq_true, opcodeAssigned_iff, reservedOperandZero_iff, legalWord_iff]

theorem decode_illegal_iff (w : Word) : (∃ why, decode w = .illegal why) ↔ wordWellFormed w = false := by
  rw [← Bool.not_eq_true, wordWellFormed_iff, ← decodes_iff_legalWord]
  rcases decode w with i | why <;> simp

end Sys2Proof

namespace Sys2Proof.Machine

/-! ### Taking a word (R70) -/

theorem takeWord_of_illegal_running {s : State} {w : Word} {why : IllegalWord} (hd : decode w = .illegal why)
    (hs : s.cause = 0) : takeWord w s = .next { s with cause := 1 } := by
  rw [takeWord_of_illegal s w why hd, ifRunning_of_running s _ hs]
  rfl

theorem takeWord_of_illegal_halted {s : State} {w : Word} {why : IllegalWord} (hd : decode w = .illegal why)
    (hs : s.cause ≠ 0) : takeWord w s = .next s := by
  rw [takeWord_of_illegal s w why hd, ifRunning_of_halted s _ hs]

/-- Settles O3: both the decoder and the two checks look at the lists of opcodes. -/
theorem illegalWordsAreOfTwoKinds : Obligations.IllegalWordsAreOfTwoKinds := by
  unfold Obligations.IllegalWordsAreOfTwoKinds
  refine ⟨decode_unassigned_iff, decode_reserved_iff, card_unassigned, card_reserved, decode_illegal_iff, by decide,
    by decide, fun s w hw => ?_⟩
  obtain ⟨why, hd⟩ := (decode_illegal_iff w).mpr hw
  by_cases hs : s.cause = 0
  · rw [takeWord_of_illegal_running hd hs, if_pos hs]
  · rw [takeWord_of_illegal_halted hd hs, if_neg hs]

/-! ### Every state has a next state (R70) -/

theorem ifRunning_total (s t : State) : ∃ u, ifRunning s t = .next u := by
  by_cases hs : s.cause = 0
  · exact ⟨t, ifRunning_of_running s t hs⟩
  · exact ⟨s, ifRunning_of_halted s t hs⟩

theorem exec_total (i : Instr) (s : State) : ∃ t, exec i s = .next t := by
  by_cases hi : i = .statRead
  · exact ⟨_, hi ▸ exec_statRead s⟩
  · rw [exec_eq_ifRunning s hi]
    exact ifRunning_total s _

theorem takeWord_total (w : Word) (s : State) : ∃ t, takeWord w s = .next t := by
  rcases hd : decode w with i | why
  · rw [takeWord_of_command s w i hd]
    exact exec_total i s
  · rw [takeWord_of_illegal s w why hd]
    exact ifRunning_total s _

/-- Settles O6, by the host's next event. -/
theorem stepIsTotal : Obligations.StepIsTotal := by
  unfold Obligations.StepIsTotal
  intro s
  rcases hh : s.host with _ | ⟨w | _ | _, later⟩
  · exact ⟨_, step_waiting hh⟩
  · rw [step_command hh]
    exact takeWord_total w _
  · exact ⟨_, step_reset hh⟩
  · exact ⟨_, step_takeByte hh⟩

/-! ### The halted test comes before legality (R70) -/

/-- A halted block answers STAT.READ and drops every other word (R154). -/
theorem takeWord_of_halted {s : State} {w : Word} (hs : s.cause ≠ 0) :
    takeWord w s =
      if decode w = .command .statRead then .next { s with out := s.out ++ [s.cause.setWidth 8] } else .next s := by
  rcases hd : decode w with i | why
  · rw [takeWord_of_command s w i hd]
    by_cases hi : i = .statRead
    · rw [hi, if_pos rfl]
      rfl
    · rw [if_neg (fun h => hi (Decoded.command.inj h)), exec_of_halted hs hi]
  · exact (takeWord_of_illegal_halted hd hs).trans (if_neg nofun).symm

/-- Settles O7, by the halted test first and the decoder's answer second. -/
theorem stepTestsHaltedThenLegality : Obligations.StepTestsHaltedThenLegality := by
  unfold Obligations.StepTestsHaltedThenLegality
  refine fun s w => ⟨?_, takeWord_total w s⟩
  by_cases hs : s.cause = 0
  · rw [if_neg (not_not.mpr hs)]
    rcases hd : decode w with i | why
    · exact takeWord_of_command s w i hd
    · exact takeWord_of_illegal_running hd hs
  · rw [if_pos hs, takeWord_of_halted hs]

/-! ### The step takes the word the host placed -/

theorem tableWord_toNat (w : Word) : tableWord 16 w.toNat = w := by
  rw [tableWord, Nat.mod_eq_of_lt w.isLt, BitVec.ofNat_toNat, BitVec.setWidth_eq]

/-- Settles O5: a placed word is the next event, and the encoder's word decodes to its command. -/
theorem stepRunsTheDecodedCommand : Obligations.StepRunsTheDecodedCommand := by
  unfold Obligations.StepRunsTheDecodedCommand
  refine ⟨fun s w later hh => step_command hh, fun s w later i hh hd => ?_, fun s i => ?_⟩
  · rw [step_command hh]
    exact takeWord_of_command _ w i hd
  · have hplaced : (s.withFetchWord 16 (encode i).toNat).host = .command (encode i) :: s.host := by
      rw [State.withFetchWord, State.placeWord, State.setHost_host, tableWord_toNat]
    rw [step_command hplaced]
    exact takeWord_of_command s _ i (decode_encode i)

end Sys2Proof.Machine

/-! ## The CRC unit (40_crc)

Taking the eight bits of a byte one by one is taking the byte (`crcStepSerial_eq`). With linearity over XOR this gives the
other forms of the update, its laws, and the remainder that the register holds. -/

namespace Sys2Proof.Machine

/-! ### The bytes and bits of a register (20_memory R46, R47) -/

@[simp] theorem highByte_xor (c d : BitVec 16) : highByte (c ^^^ d) = highByte c ^^^ highByte d :=
  BitVec.extractLsb'_xor

@[simp] theorem highByte_shiftLeft_eight (c : BitVec 16) : highByte (c <<< 8) = lowByte c := by
  refine BitVec.eq_of_getLsbD_eq fun i hi => ?_
  simp only [highByte, lowByte, BitVec.getLsbD_extractLsb', BitVec.getLsbD_shiftLeft]
  simp [hi, show 8 + i < 16 by omega]

@[simp] theorem lowByte_setWidth (b : Byte) : lowByte (b.setWidth 16) = b := by
  refine BitVec.eq_of_getLsbD_eq fun i hi => ?_
  simp [lowByte, hi, show i < 16 by omega]

@[simp] theorem shiftLeft_eight_twice (c : BitVec 16) : c <<< 8 <<< 8 = 0 := by
  rw [← BitVec.shiftLeft_add]
  exact BitVec.shiftLeft_eq_zero le_rfl

theorem byteBits_highByte (x : BitVec 16) : byteBits (highByte x) = (List.range 8).map x.getMsbD := by
  simp [byteBits, highByte, List.range_succ, BitVec.getMsbD_eq_getLsbD]

/-- A register whose bits are written out as a list, bit 15 first, is the register with these bits. -/
theorem eq_of_ofBoolListBE {x y : BitVec 16} {bs : List Bool} (hlen : 16 = bs.length)
    (hx : x.cast hlen = BitVec.ofBoolListBE bs) (hbits : ∀ i < 16, bs.getD i false = y.getLsbD (15 - i)) : x = y := by
  refine BitVec.eq_of_getMsbD_eq fun i hi => ?_
  rw [← BitVec.getMsbD_cast hlen, hx, BitVec.getMsbD_ofBoolListBE, hbits i hi, BitVec.getMsbD_eq_getLsbD,
    decide_eq_true hi, Bool.true_and]

/-! ### The update bit by bit (R81, R86) -/

theorem crcBit_eq_xor (c : BitVec 16) (d : Bool) :
    crcBit c d = (c <<< 1) ^^^ (if c.getLsbD 15 ^^ d then crcPoly else 0) := by
  unfold crcBit
  split
  · rfl
  · exact BitVec.xor_zero.symm

/-- One turn of R81 on a register with `x` in it: the oldest bit of `x` is a message bit, the rest move up. -/
theorem crcShift_xor_eq_crcBit (c x : BitVec 16) :
    crcShift (c ^^^ x) = crcBit c (x.getMsbD 0) ^^^ (x <<< 1) := by
  have htop : x.getMsbD 0 = x.getLsbD 15 := rfl
  unfold crcShift crcBit
  rw [BitVec.getLsbD_xor, BitVec.shiftLeft_xor_distrib, htop]
  split
  · ac_rfl
  · rfl

/-- `n` turns of R81 take the `n` oldest bits of `x` one by one and move the rest up. -/
theorem crcShifts_xor_eq_foldl (n : Nat) (c x : BitVec 16) :
    crcShifts n (c ^^^ x) = ((List.range n).map x.getMsbD).foldl crcBit c ^^^ (x <<< n) := by
  induction n generalizing c x with
  | zero => simp [crcShifts]
  | succ n ih =>
    have hrest : (x <<< 1).getMsbD = x.getMsbD ∘ Nat.succ := by
      funext i
      simp
    rw [crcShifts, crcShift_xor_eq_crcBit, ih, hrest, List.range_succ_eq_map, List.map_cons, List.map_map,
      List.foldl_cons, Nat.add_comm n 1, BitVec.shiftLeft_add]

theorem crcShifts_eight_xor (c x : BitVec 16) :
    crcShifts 8 (c ^^^ x) = crcStepSerial c (highByte x) ^^^ (x <<< 8) := by
  rw [crcShifts_xor_eq_foldl, crcStepSerial, byteBits_highByte]

/-- The bit-serial form is `crc_step` (R86). -/
theorem crcStepSerial_eq (c : BitVec 16) (b : Byte) : crcStepSerial c b = crcStep c b := by
  simp [crcStep, crcShifts_eight_xor]

/-- The flip-flop equations are `crc_bit` (R86), for each value of the feedback bit. -/
theorem crcBitFlipFlops_eq (c : BitVec 16) (d : Bool) : crcBitFlipFlops c d = crcBit c d := by
  rw [crcBit_eq_xor]
  refine eq_of_ofBoolListBE rfl rfl fun i hi => ?_
  cases c.getLsbD 15 ^^ d
  · interval_cases i <;> simp
  · interval_cases i <;> simp [crcPoly]

/-! ### The update by whole bytes (R87, R88) -/

/-- The low byte moves up, and the rest depends only on the byte that the high byte and the operand make (R88). -/
theorem crcStep_eq_shift_xor (c : BitVec 16) (b : Byte) :
    crcStep c b = (c <<< 8) ^^^ crcStep 0 (highByte c ^^^ b) := by
  have h : crcShifts 8 (0#16 ^^^ (c ^^^ (b.setWidth 16 <<< 8))) = _ := crcShifts_eight_xor 0 _
  rw [crcStepSerial_eq, BitVec.zero_xor, BitVec.shiftLeft_xor_distrib] at h
  simpa [crcStep, BitVec.xor_comm] using h

theorem crcTable_entry : ∀ b : Byte, crcTable.getD b.toNat 0 = crcStep 0 b := by decide

theorem crcStepTable_eq (c : BitVec 16) (b : Byte) : crcStepTable c b = crcStep c b := by
  rw [crcStepTable, crcTable_entry, ← crcStep_eq_shift_xor]

theorem crcStepShiftXor_zero : ∀ b : Byte, crcStepShiftXor 0 b = crcStep 0 b := by decide

theorem crcStepShiftXor_eq (c : BitVec 16) (b : Byte) : crcStepShiftXor c b = crcStep c b := by
  have hzero : highByte 0#16 = 0#8 := rfl
  rw [crcStep_eq_shift_xor, ← crcStepShiftXor_zero]
  simp [crcStepShiftXor, hzero, BitVec.xor_assoc]

/-- The equations of R87 are the bits of the shift-and-XOR form. -/
theorem crcStepParallel_eq_shiftXor (c : BitVec 16) (b : Byte) : crcStepParallel c b = crcStepShiftXor c b := by
  refine eq_of_ofBoolListBE rfl rfl fun i hi => ?_
  simp only [crcStepShiftXor, BitVec.getLsbD_xor, highByte]
  interval_cases i <;> simp

/-- Settles O41: the serial form by the bits of the byte, the others by the byte that leaves the register at the top. -/
theorem crcStepFormsAgree : Obligations.CrcStepFormsAgree := by
  unfold Obligations.CrcStepFormsAgree
  exact ⟨crcBitFlipFlops_eq, fun c b => ⟨crcStepSerial_eq c b,
    (crcStepParallel_eq_shiftXor c b).trans (crcStepShiftXor_eq c b), crcStepShiftXor_eq c b, crcStepTable_eq c b,
    by decide +kernel, crcTable_entry b⟩⟩

/-! ### The laws (R89) -/

theorem crcStep_xor (c d : BitVec 16) (a b : Byte) :
    crcStep (c ^^^ d) (a ^^^ b) = crcStep c a ^^^ crcStep d b := by
  rw [crcStep, crcStep, crcStep, ← crcShifts_xor, BitVec.setWidth_xor, BitVec.shiftLeft_xor_distrib]
  congr 1
  ac_rfl

theorem crcStep_eq_step_zero (c : BitVec 16) (b : Byte) :
    crcStep c b = crcStep (c ^^^ (b.setWidth 16 <<< 8)) 0x00 := by
  simp [crcStep]

theorem crcStep_zero_zero : crcStep 0 0 = 0 := rfl

theorem crc16_append (m n : List Byte) : crc16 (m ++ n) = crcFeed (crc16 m) n := List.foldl_append

/-- Zero bytes leave zero in the register. -/
theorem crcFeed_zeros {z : List Byte} (h : ∀ x ∈ z, x = 0x00) : crcFeed 0 z = 0 := by
  induction z with
  | nil => rfl
  | cons x z ih =>
    obtain ⟨rfl, hz⟩ := List.forall_mem_cons.mp h
    exact ih hz

/-- The high byte of the register leaves nothing but the low byte, moved up. -/
theorem crcStep_highByte (c : BitVec 16) : crcStep c (highByte c) = c <<< 8 := by
  rw [crcStep_eq_shift_xor, BitVec.xor_self]
  exact BitVec.xor_zero

/-- The register's own bytes, high byte first, bring it to zero (R89). -/
theorem crcFeed_own_bytes (c : BitVec 16) : crcFeed c [highByte c, lowByte c] = 0 := by
  rw [crcFeed_cons, crcFeed_cons, crcFeed_nil, crcStep_highByte, ← highByte_shiftLeft_eight, crcStep_highByte,
    shiftLeft_eight_twice]

/-- Settles O42. -/
theorem crcLaws : Obligations.CrcLaws := by
  unfold Obligations.CrcLaws
  refine ⟨crcStep_xor, crcStep_eq_step_zero, fun z m hz => ?_, fun m => ?_, ⟨[0x31], by decide +kernel⟩, crc16_append⟩
  · exact (crc16_append z m).trans (congrArg (crcFeed · m) (crcFeed_zeros hz))
  · exact (crc16_append m _).trans (crcFeed_own_bytes (crc16 m))

/-! ### The update is a bijection (R84) -/

theorem crcShift_getLsbD_zero (c : BitVec 16) : (crcShift c).getLsbD 0 = c.getLsbD 15 := by
  unfold crcShift
  cases c.getLsbD 15 <;> simp [crcPoly]

/-- Bit 0 after the turn tells whether the polynomial was added. -/
theorem crcShift_injective : Function.Injective crcShift := by
  intro c d h
  have htop : c.getLsbD 15 = d.getLsbD 15 := by rw [← crcShift_getLsbD_zero, h, crcShift_getLsbD_zero]
  have hrest : c <<< 1 = d <<< 1 := by
    unfold crcShift at h
    rw [htop] at h
    split at h
    · simpa using h
    · exact h
  refine BitVec.eq_of_getLsbD_eq fun i hi => ?_
  obtain hlt | rfl : i < 15 ∨ i = 15 := by omega
  · simpa [show i + 1 < 16 by omega, hi] using congrArg (BitVec.getLsbD · (i + 1)) hrest
  · exact htop

theorem crcShifts_injective (n : Nat) : Function.Injective (crcShifts n) := by
  induction n with
  | zero => exact Function.injective_id
  | succ n ih => exact ih.comp crcShift_injective

theorem crcStep_bijective (b : Byte) : Function.Bijective fun c => crcStep c b := by
  refine Finite.injective_iff_bijective.mp fun c d h => ?_
  simpa using crcShifts_injective 8 h

/-! ### The commands (R83 to R85) -/

/-- Settles O13. -/
theorem crcByteTakesOneByte : Obligations.CrcByteTakesOneByte := by
  unfold Obligations.CrcByteTakesOneByte
  obtain ⟨_, _, hword, _⟩ := decodeInvertsEncode
  exact ⟨hword, fun s b hs => exec_of_running (.crcByte b) hs, crcStep_zero_zero, by decide, crcStep_bijective⟩

/-- Settles O12. -/
theorem crcInitStartsANewComputation : Obligations.CrcInitStartsANewComputation := by
  unfold Obligations.CrcInitStartsANewComputation
  refine ⟨by decide, fun s hs => exec_of_running .crcInit hs, fun imm himm => ?_, rfl⟩
  obtain ⟨opc, imm', hd⟩ := (decode_reserved_iff (assemble 0x10 imm)).mpr
    ⟨by rw [opcField_assemble]; decide, by rwa [immField_assemble]⟩
  exact ⟨_, hd⟩

/-- Settles O14. -/
theorem crcReadEmitsLowByteFirst : Obligations.CrcReadEmitsLowByteFirst := by
  unfold Obligations.CrcReadEmitsLowByteFirst
  exact ⟨by decide, fun s hs => exec_of_running .crcRead hs⟩

end Sys2Proof.Machine

/-! ## The register is a polynomial remainder over GF(2) (40_crc R80) -/

namespace Sys2Proof.Machine

open Polynomial

/-- The generator `G(x)` of R80. -/
noncomputable def crcGenerator : (ZMod 2)[X] := X ^ 16 + X ^ 12 + X ^ 5 + 1

/-- One bit as a multiple of `p`. -/
noncomputable def bitTimes (d : Bool) (p : (ZMod 2)[X]) : (ZMod 2)[X] := if d then p else 0

/-- A register as a polynomial, bit `i` the coefficient of `x^i`. -/
noncomputable def registerPoly (c : BitVec 16) : (ZMod 2)[X] := ∑ i ∈ Finset.range 16, bitTimes (c.getLsbD i) (X ^ i)

/-- A bit string after the polynomial `p`, highest power first. -/
noncomputable def appendBits (p : (ZMod 2)[X]) (bits : List Bool) : (ZMod 2)[X] :=
  bits.foldl (fun q d => q * X + bitTimes d 1) p

theorem crcGenerator_monic : crcGenerator.Monic := by
  unfold crcGenerator
  monicity!

theorem crcGenerator_degree : crcGenerator.degree = 16 := by
  unfold crcGenerator
  compute_degree!

theorem bitTimes_xor (d e : Bool) (p : (ZMod 2)[X]) : bitTimes (d ^^ e) p = bitTimes d p + bitTimes e p := by
  cases d <;> cases e <;> simp [bitTimes, CharTwo.add_self_eq_zero]

theorem bitTimes_mul (d : Bool) (p q : (ZMod 2)[X]) : bitTimes d p * q = bitTimes d (p * q) := ite_zero_mul ..

theorem registerPoly_xor (c d : BitVec 16) : registerPoly (c ^^^ d) = registerPoly c + registerPoly d := by
  simp only [registerPoly, BitVec.getLsbD_xor, bitTimes_xor, Finset.sum_add_distrib]

theorem registerPoly_zero : registerPoly 0 = 0 := by
  simp [registerPoly, bitTimes]

theorem registerPoly_degree_lt (c : BitVec 16) : (registerPoly c).degree < crcGenerator.degree := by
  rw [crcGenerator_degree]
  refine mem_degreeLT.mp (Submodule.sum_mem _ fun i hi => ?_)
  cases c.getLsbD i
  · exact Submodule.zero_mem _
  · refine mem_degreeLT.mpr ((degree_X_pow_le i).trans_lt ?_)
    exact_mod_cast Finset.mem_range.mp hi

theorem registerPoly_shiftLeft (c : BitVec 16) :
    registerPoly (c <<< 1) = registerPoly c * X + bitTimes (c.getLsbD 15) (X ^ 16) := by
  have hbit (k : Nat) (hk : k ∈ Finset.range 15) : (c <<< 1).getLsbD (k + 1) = c.getLsbD k := by
    have hlt : k + 1 < 16 := Nat.succ_lt_succ (Finset.mem_range.mp hk)
    rw [BitVec.getLsbD_shiftLeft, decide_eq_true hlt]
    simp
  have hlow : registerPoly (c <<< 1) = ∑ k ∈ Finset.range 15, bitTimes (c.getLsbD k) (X ^ (k + 1)) := by
    rw [registerPoly, Finset.sum_range_succ', Finset.sum_congr rfl fun k hk => by rw [hbit k hk]]
    simp [bitTimes]
  have h : registerPoly c * X = registerPoly (c <<< 1) + bitTimes (c.getLsbD 15) (X ^ 16) := by
    rw [hlow, registerPoly, Finset.sum_mul, Finset.sum_range_succ]
    simp only [bitTimes_mul, ← pow_succ]
  rw [h, CharTwo.add_cancel_right]

theorem registerPoly_crcPoly : registerPoly crcPoly = crcGenerator + X ^ 16 := by
  have h : crcGenerator + X ^ 16 = X ^ 12 + X ^ 5 + 1 := by
    unfold crcGenerator
    linear_combination CharTwo.add_self_eq_zero (X ^ 16 : (ZMod 2)[X])
  rw [h]
  simp [registerPoly, Finset.sum_range_succ, bitTimes, crcPoly]
  ring

/-- One bit (R86): the register times `x` plus the bit times `x^16`, up to the generator. -/
theorem registerPoly_crcBit (c : BitVec 16) (d : Bool) :
    registerPoly (crcBit c d) =
      registerPoly c * X + bitTimes d (X ^ 16) + bitTimes (c.getLsbD 15 ^^ d) crcGenerator := by
  have hfeedback : registerPoly (if c.getLsbD 15 ^^ d then crcPoly else 0) =
      bitTimes (c.getLsbD 15 ^^ d) crcGenerator + bitTimes (c.getLsbD 15 ^^ d) (X ^ 16) := by
    cases c.getLsbD 15 ^^ d
    · exact registerPoly_zero.trans (add_zero 0).symm
    · simp [registerPoly_crcPoly, bitTimes]
  rw [crcBit_eq_xor, registerPoly_xor, registerPoly_shiftLeft, hfeedback, bitTimes_xor _ _ (X ^ 16)]
  linear_combination CharTwo.add_self_eq_zero (bitTimes (c.getLsbD 15) (X ^ 16))

/-- The register stays congruent to the bits taken, times `x^16`. -/
theorem crcGenerator_dvd_crcBits {bits : List Bool} {c : BitVec 16} {p : (ZMod 2)[X]}
    (h : crcGenerator ∣ p * X ^ 16 - registerPoly c) :
    crcGenerator ∣ appendBits p bits * X ^ 16 - registerPoly (bits.foldl crcBit c) := by
  induction bits generalizing c p with
  | nil => exact h
  | cons d bits ih =>
    refine ih ?_
    have hstep : (p * X + bitTimes d 1) * X ^ 16 - registerPoly (crcBit c d) =
        (p * X ^ 16 - registerPoly c) * X - bitTimes (c.getLsbD 15 ^^ d) crcGenerator := by
      rw [registerPoly_crcBit, add_mul, bitTimes_mul, one_mul]
      ring
    rw [hstep]
    refine dvd_sub (h.mul_right X) ?_
    cases c.getLsbD 15 ^^ d
    · exact dvd_zero _
    · exact dvd_rfl

/-- Taking bytes is taking their bits (R86). -/
theorem crcFeed_eq_foldl_crcBit (c : BitVec 16) (m : List Byte) : crcFeed c m = (messageBits m).foldl crcBit c := by
  rw [messageBits, List.foldl_flatMap, crcFeed]
  congr 1
  funext c b
  exact (crcStepSerial_eq c b).symm

theorem registerPoly_crc16 (m : List Byte) :
    registerPoly (crc16 m) = (appendBits 0 (messageBits m) * X ^ 16) %ₘ crcGenerator := by
  have hstart : crcGenerator ∣ 0 * X ^ 16 - registerPoly crcInitial := by
    rw [crcInitial, registerPoly_zero, zero_mul, sub_zero]
    exact dvd_zero _
  rw [modByMonic_eq_of_dvd_sub crcGenerator_monic (crcGenerator_dvd_crcBits hstart), ← crcFeed_eq_foldl_crcBit, ← crc16,
    (modByMonic_eq_self_iff crcGenerator_monic).mpr (registerPoly_degree_lt _)]

theorem crcOperands_map_crcByte (m : List Byte) : crcOperands (m.map Instr.crcByte) = m := by
  induction m with
  | nil => rfl
  | cons b m ih => exact congrArg (b :: ·) ih

/-- Settles O43: `CRC` is `crc16` of the bytes given (O44), and each bit taken keeps the congruence
(`crcGenerator_dvd_crcBits`). -/
theorem crcIsThePolynomialRemainder : Obligations.CrcIsThePolynomialRemainder := by
  unfold Obligations.CrcIsThePolynomialRemainder
  intro m s hs
  obtain ⟨_, t, ht, _, hcrc⟩ := crcHoldsTheBytesGiven (m.map Instr.crcByte) s hs (by simp)
  rw [crcOperands_map_crcByte] at hcrc
  refine ⟨t, ht, ?_⟩
  rw [hcrc]
  exact registerPoly_crc16 m

end Sys2Proof.Machine

/-! ## The Base32 unit (41_base32)

The loop of the byte step cuts the oldest five bits off a register, and `groupsOfFive` cuts the first five off a list.
With the register's bits written as a list (`lowBits`) the two agree turn by turn (`map_groupsOfFive_cutGroups`), so a
text is the alphabet over the message's groups (R100), and the laws of R110 are facts about cutting a list into
fives. -/

namespace Sys2Proof.Machine

/-! ### The bits of a register as a list (20_memory R48) -/

/-- The low `k` bits of a register, the most significant first. -/
def lowBits {w : Nat} (x : BitVec w) : Nat → List Bool
  | 0 => []
  | k + 1 => x.getLsbD k :: lowBits x k

theorem byteBits_eq_lowBits (b : Byte) : byteBits b = lowBits b 8 := rfl

section
variable {v w k : Nat} {x : BitVec v} {y : BitVec w}

theorem lowBits_eq_iff : lowBits x k = lowBits y k ↔ ∀ i < k, x.getLsbD i = y.getLsbD i := by
  induction k with
  | zero => simp [lowBits]
  | succ k ih => rw [lowBits, lowBits, List.cons.injEq, ih, Nat.forall_lt_succ_right, and_comm]

/-- The young bits of two registers side by side are the right one's. -/
theorem lowBits_append_right (hk : k ≤ w) : lowBits (x ++ y) k = lowBits y k :=
  lowBits_eq_iff.mpr fun i hi => by rw [BitVec.getLsbD_append, if_pos (hi.trans_le hk)]

theorem lowBits_append : lowBits (x ++ y) (k + w) = lowBits x k ++ lowBits y w := by
  induction k with
  | zero =>
    rw [Nat.zero_add]
    exact lowBits_append_right le_rfl
  | succ k ih =>
    rw [Nat.add_right_comm, lowBits, lowBits, ih, BitVec.getLsbD_append, if_neg (by omega), Nat.add_sub_cancel,
      List.cons_append]

end

/-! ### The bits of a message (20_memory R48, R57) -/

theorem messageBits_nil : messageBits [] = [] := rfl

theorem messageBits_cons (b : Byte) (m : List Byte) : messageBits (b :: m) = byteBits b ++ messageBits m := rfl

theorem messageBits_length (m : List Byte) : (messageBits m).length = 8 * m.length := by
  induction m with
  | nil => rfl
  | cons b m ih =>
    rw [messageBits_cons, List.length_append, ih, List.length_cons, Nat.mul_succ, Nat.add_comm]
    rfl

theorem messageBits_append (m n : List Byte) : messageBits (m ++ n) = messageBits m ++ messageBits n :=
  List.flatMap_append

theorem byteBits_injective : Function.Injective byteBits := by
  intro b c h
  rw [byteBits_eq_lowBits, byteBits_eq_lowBits, lowBits_eq_iff] at h
  exact BitVec.eq_of_getLsbD_eq h

theorem messageBits_injective : Function.Injective messageBits := by
  intro m n h
  induction m generalizing n with
  | nil =>
    cases n with
    | nil => rfl
    | cons c n => cases h
  | cons b m ih =>
    cases n with
    | nil => cases h
    | cons c n =>
      rw [messageBits_cons, messageBits_cons] at h
      obtain ⟨hbyte, hrest⟩ := List.append_inj h rfl
      rw [byteBits_injective hbyte, ih hrest]

/-! ### Cutting a list into fives (R100) -/

/-- Five bits of a symbol index and the index give each other back. -/
theorem symbolOf_getLsbD : ∀ g : BitVec 5,
    symbolOf (g.getLsbD 4) (g.getLsbD 3) (g.getLsbD 2) (g.getLsbD 1) (g.getLsbD 0) = g := by decide

theorem lowBits_symbolOf : ∀ a b c d e : Bool, lowBits (symbolOf a b c d e) 5 = [a, b, c, d, e] := by decide

theorem groupsOfFive_lowBits {w : Nat} (x : BitVec w) (k : Nat) (rest : List Bool) :
    groupsOfFive (lowBits x (k + 5) ++ rest) = (x >>> k).setWidth 5 :: groupsOfFive (lowBits x k ++ rest) := by
  have hgroup := symbolOf_getLsbD ((x >>> k).setWidth 5)
  simp only [BitVec.getLsbD_setWidth, BitVec.getLsbD_ushiftRight] at hgroup
  simp [lowBits, groupsOfFive, ← hgroup]

/-- Whole groups are cut off whatever follows. -/
theorem groupsOfFive_append {x : List Bool} (y : List Bool) (h : x.length % 5 = 0) :
    groupsOfFive (x ++ y) = groupsOfFive x ++ groupsOfFive y := by
  induction x using groupsOfFive.induct with
  | case1 => rfl
  | case2 | case3 | case4 | case5 => simp at h
  | case6 a b c d e rest ih =>
    have hrest : rest.length % 5 = 0 := (Nat.add_mod_right _ 5).symm.trans h
    exact congrArg (symbolOf a b c d e :: ·) (ih hrest)

/-- The groups that a front part fills do not depend on what follows. -/
theorem take_groupsOfFive_append (x y : List Bool) :
    (groupsOfFive (x ++ y)).take (x.length / 5) = (groupsOfFive x).take (x.length / 5) := by
  induction x using groupsOfFive.induct with
  | case1 | case2 | case3 | case4 | case5 => simp
  | case6 a b c d e rest ih =>
    have hlen : (a :: b :: c :: d :: e :: rest).length / 5 = rest.length / 5 + 1 :=
      Nat.add_div_right rest.length (show 0 < 5 by decide)
    rw [hlen]
    exact congrArg (symbolOf a b c d e :: ·) ih

/-- The bits come back from the groups, the zero fill after them. -/
theorem prefix_flatMap_groupsOfFive (x : List Bool) : x <+: (groupsOfFive x).flatMap (lowBits · 5) := by
  induction x using groupsOfFive.induct with
  | case1 => exact List.prefix_rfl
  | case2 | case3 | case4 | case5 => simp [groupsOfFive, lowBits_symbolOf]
  | case6 a b c d e rest ih =>
    rw [groupsOfFive, List.flatMap_cons, lowBits_symbolOf]
    exact (List.prefix_append_right_inj [a, b, c, d, e]).mpr ih

/-- So the groups and the number of bits determine the bits. -/
theorem eq_of_groupsOfFive_eq {x y : List Bool} (hlen : x.length = y.length) (h : groupsOfFive x = groupsOfFive y) :
    x = y := by
  have hx := prefix_flatMap_groupsOfFive x
  rw [h] at hx
  exact (List.prefix_of_prefix_length_le hx (prefix_flatMap_groupsOfFive y) hlen.le).eq_of_length hlen

/-! ### The byte step (R102) -/

/-- The loop of R102 emits the groups that R100 cuts off the same bits, and leaves the bits it does not cut. -/
theorem map_groupsOfFive_cutGroups (fuel : Nat) (t : BitVec 12) (k : Nat) (rest : List Bool) :
    (groupsOfFive (lowBits t k ++ rest)).map alpha =
      (cutGroups fuel t k).1 ++ (groupsOfFive (lowBits t (cutGroups fuel t k).2 ++ rest)).map alpha := by
  induction fuel generalizing k with
  | zero => rfl
  | succ fuel ih =>
    by_cases hk : 5 ≤ k
    · obtain ⟨j, rfl⟩ := Nat.exists_eq_add_of_le' hk
      simp only [cutGroups, hk, if_true, Nat.add_sub_cancel, groupsOfFive_lowBits, List.map_cons, ih j,
        List.cons_append]
    · simp only [cutGroups, hk, if_false, List.nil_append]

theorem youngestBits_eq (t : BitVec 12) {k : Nat} (hk : k < 5) : youngestBits t k = (t.extractLsb' 0 k).setWidth 4 := by
  have hmask : (((1 : BitVec 12) <<< k) - 1).toNat = 2 ^ k - 1 := by interval_cases k <;> rfl
  apply BitVec.eq_of_toNat_eq
  rw [youngestBits, BitVec.toNat_setWidth, BitVec.toNat_and, hmask, Nat.and_two_pow_sub_one_eq_mod]
  simp

/-- The working value `t` of R102 is the pending bits and the byte side by side. -/
theorem shiftLeft_or_eq_append (a : BitVec 4) (b : Byte) : (a.setWidth 12 <<< 8) ||| b.setWidth 12 = a ++ b := by
  refine BitVec.eq_of_getLsbD_eq fun i hi => ?_
  rw [BitVec.getLsbD_append]
  by_cases hb : i < 8
  · simp [hb, hi]
  · simp [hb, hi, BitVec.getLsbD_of_ge b i (not_lt.mp hb)]

/-- What the loop of R102 makes of the pending bits and a byte: the characters, and how many bits it leaves. -/
def cutPending (a : BitVec 4) (n : BitVec 3) (b : Byte) : List Byte × Nat := cutGroups 3 (a ++ b) (n.toNat + 8)

theorem cutPending_rest (a : BitVec 4) (n : BitVec 3) (b : Byte) : (cutPending a n b).2 < 5 :=
  cutGroups_rest 3 _ _ (by have := n.isLt; omega)

/-- The bits the loop leaves are bits of the byte. -/
theorem b32Absorb_eq (a : BitVec 4) (n : BitVec 3) (b : Byte) :
    b32Absorb a n b = ⟨(b.extractLsb' 0 (cutPending a n b).2).setWidth 4, BitVec.ofNat 3 (cutPending a n b).2,
      (cutPending a n b).1⟩ := by
  have hrest := cutPending_rest a n b
  rw [b32Absorb, shiftLeft_or_eq_append, ← cutPending, youngestBits_eq _ hrest,
    BitVec.extractLsb'_append_eq_of_add_le (by omega)]

section
variable (a : BitVec 4) (b : Byte)

/-- A group that takes no pending bit. -/
theorem group_of_byte {k : Nat} (hk : k + 5 ≤ 8) : ((a ++ b) >>> k).setWidth 5 = b.extractLsb' k 5 := by
  rw [BitVec.setWidth_ushiftRight_eq_extractLsb, BitVec.extractLsb'_append_eq_of_add_le hk]

/-- A group of `n` pending bits and the byte's oldest. -/
theorem group_of_pending_and_byte {n k : Nat} (h : n + (8 - k) = 5) (hk : 3 < k ∧ k < 8) :
    ((a ++ b) >>> k).setWidth 5 = (a.extractLsb' 0 n ++ b.extractLsb' k (8 - k)).cast h := by
  obtain rfl : n = 5 - (8 - k) := by omega
  rw [BitVec.setWidth_ushiftRight_eq_extractLsb, BitVec.extractLsb'_append_eq_ite, dif_pos hk.2,
    dif_neg (by omega)]
  simp [Nat.sub_eq_zero_of_le hk.2.le]

end

theorem lowBits_setWidth_extractLsb' (b : Byte) {k : Nat} (hk : k ≤ 4) :
    lowBits ((b.extractLsb' 0 k).setWidth 4) k = lowBits b k := by
  refine lowBits_eq_iff.mpr fun i hi => ?_
  simp [hi, show i < 4 by omega]

/-- A byte step emits the groups that the byte completes and leaves the bits after them pending. -/
theorem map_groupsOfFive_b32Absorb (a : BitVec 4) (n : BitVec 3) (b : Byte) (rest : List Bool) :
    (groupsOfFive (lowBits a n.toNat ++ (byteBits b ++ rest))).map alpha = (b32Absorb a n b).chars ++
      (groupsOfFive (lowBits (b32Absorb a n b).acc (b32Absorb a n b).nb.toNat ++ rest)).map alpha := by
  have hrest := cutPending_rest a n b
  rw [← List.append_assoc, byteBits_eq_lowBits, ← lowBits_append, map_groupsOfFive_cutGroups 3, ← cutPending,
    b32Absorb_eq, BitVec.toNat_ofNat, Nat.mod_eq_of_lt (by omega), lowBits_setWidth_extractLsb' _ (by omega),
    lowBits_append_right (by omega)]

/-! ### The final step (R103) -/

theorem b32Flush_zero (a : BitVec 4) : b32Flush a 0 = [] := rfl

/-- The final step is the short last group, filled with zero bits. -/
theorem b32Flush_eq_groups : ∀ (a : BitVec 4) (n : BitVec 3), n.toNat ≤ 4 →
    b32Flush a n = (groupsOfFive (lowBits a n.toNat)).map alpha := by decide

/-- The final step's group by the number of pending bits. -/
theorem b32Flush_by_cases : ∀ a : BitVec 4, b32Flush a 0 = [] ∧ b32Flush a 1 = [alpha (a.extractLsb' 0 1 ++ 0#4)] ∧
    b32Flush a 2 = [alpha (a.extractLsb' 0 2 ++ 0#3)] ∧ b32Flush a 3 = [alpha (a.extractLsb' 0 3 ++ 0#2)] ∧
    b32Flush a 4 = [alpha (a ++ 0#1)] := by
  decide

/-- Settles O45: the loop of the byte step unrolled, each group a group of the byte or of pending bits and the byte. -/
theorem b32StepsByCases : Obligations.B32StepsByCases := by
  unfold Obligations.B32StepsByCases
  refine ⟨b32Flush_by_cases, fun a b => ?_⟩
  have hone : ((a ++ b) >>> 4).setWidth 5 = a.extractLsb' 0 1 ++ b.extractLsb' 4 4 :=
    group_of_pending_and_byte a b rfl (by decide)
  have htwo : ((a ++ b) >>> 5).setWidth 5 = a.extractLsb' 0 2 ++ b.extractLsb' 5 3 :=
    group_of_pending_and_byte a b rfl (by decide)
  have hthree : ((a ++ b) >>> 6).setWidth 5 = a.extractLsb' 0 3 ++ b.extractLsb' 6 2 :=
    group_of_pending_and_byte a b rfl (by decide)
  have hfour : ((a ++ b) >>> 7).setWidth 5 = a.extractLsb' 0 4 ++ b.extractLsb' 7 1 :=
    group_of_pending_and_byte a b rfl (by decide)
  have hlow : (a ++ b).setWidth 5 = b.extractLsb' 0 5 := group_of_byte a b (k := 0) (by decide)
  refine ⟨?_, ?_, ?_, ?_, ?_⟩
  · simp [b32Absorb_eq, cutPending, cutGroups, group_of_byte]
  · simp [b32Absorb_eq, cutPending, cutGroups, hone]
  · simp [b32Absorb_eq, cutPending, cutGroups, htwo, hlow]
  · simp [b32Absorb_eq, cutPending, cutGroups, hthree, group_of_byte]
  · simp [b32Absorb_eq, cutPending, cutGroups, hfour, group_of_byte]

/-! ### The text (R104, R110) -/

/-- The loop of R104 and its final step emit the groups of the pending bits followed by the bytes' bits. -/
theorem foldl_feed_eq_groups (m : List Byte) (r : Absorbed) (h : r.nb.toNat ≤ 4) :
    (m.foldl Absorbed.feed r).chars ++ b32Flush (m.foldl Absorbed.feed r).acc (m.foldl Absorbed.feed r).nb =
      r.chars ++ (groupsOfFive (lowBits r.acc r.nb.toNat ++ messageBits m)).map alpha := by
  induction m generalizing r with
  | nil => rw [List.foldl_nil, b32Flush_eq_groups _ _ h, messageBits_nil, List.append_nil]
  | cons b m ih =>
    obtain ⟨hnb, _⟩ := b32Absorb_legal r.acc r.nb b
    rw [List.foldl_cons, ih (r.feed b) hnb, messageBits_cons, map_groupsOfFive_b32Absorb]
    exact List.append_assoc ..

/-- The byte-by-byte text is the alphabet over the message's groups (R100). -/
theorem b32_eq_map_groupsOfFive (m : List Byte) : b32 m = (groupsOfFive (messageBits m)).map alpha :=
  foldl_feed_eq_groups m ⟨0, 0, []⟩ (by decide)

/-- Eight characters for each whole block of five bytes, and those of the rest (R104). -/
theorem b32_length_by_blocks (m : List Byte) :
    (b32 m).length = 8 * (m.length / 5) + (8 * (m.length % 5) + 4) / 5 := by
  rw [b32_length]
  omega

/-- The counts of R104 for a rest of `r` bytes. -/
theorem rest_length : ∀ r < 5, [0, 2, 4, 5, 7].getD r 0 = (8 * r + 4) / 5 := by decide

/-- Settles O46. -/
theorem b32IsTheGroupsOfFive : Obligations.B32IsTheGroupsOfFive := by
  unfold Obligations.B32IsTheGroupsOfFive
  refine fun m => ⟨b32_eq_map_groupsOfFive m, b32_length m, ?_⟩
  rw [b32_length_by_blocks, rest_length _ (Nat.mod_lt _ (by decide))]

/-- Settles O49: whole blocks of bytes are whole groups of bits, and the front bytes fill the front groups. -/
theorem b32BlocksAndFronts : Obligations.B32BlocksAndFronts := by
  unfold Obligations.B32BlocksAndFronts
  simp only [b32_eq_map_groupsOfFive, messageBits_append]
  refine ⟨fun m n hm => ?_, fun m n => ?_⟩
  · have hbits : (messageBits m).length % 5 = 0 := by
      rw [messageBits_length]
      omega
    rw [groupsOfFive_append _ hbits, List.map_append]
  · rw [← messageBits_length, ← List.map_take, ← List.map_take, take_groupsOfFive_append]

/-! ### The text determines the message (R110 law 6) -/

theorem alpha_injective : ∀ g h : BitVec 5, alpha g = alpha h → g = h := by decide

/-- Settles O50: the length of the text gives the number of bytes, the characters give the groups, these the bits. -/
theorem b32IsInjective : Obligations.B32IsInjective := by
  unfold Obligations.B32IsInjective
  intro m n h
  have hlen : m.length = n.length := by
    have := congrArg List.length h
    rw [b32_length, b32_length] at this
    omega
  rw [b32_eq_map_groupsOfFive, b32_eq_map_groupsOfFive] at h
  have hgroups := List.map_injective_iff.mpr alpha_injective h
  refine messageBits_injective (eq_of_groupsOfFive_eq ?_ hgroups)
  rw [messageBits_length, messageBits_length, hlen]

/-! ### The alphabet and the pad (R101, R109) -/

theorem alpha_eq_arithmetic : ∀ g : BitVec 5,
    alpha g = if g.toNat ≤ 25 then BitVec.ofNat 8 (0x41 + g.toNat) else BitVec.ofNat 8 (0x18 + g.toNat) := by decide

theorem alpha_ne_padChar : ∀ g : BitVec 5, alpha g ≠ padChar := by decide

/-- What R101 and R49 say is not in the table. -/
theorem alpha_excludes : ∀ g : BitVec 5, (alpha g).getLsbD 7 = false ∧
    ¬ (0x61 ≤ (alpha g).toNat ∧ (alpha g).toNat ≤ 0x7A) ∧ alpha g ∉ ([0x30, 0x31, 0x38, 0x39] : List Byte) := by
  decide

theorem exists_alpha_of_mem_b32 {m : List Byte} {c : Byte} (h : c ∈ b32 m) : ∃ g, c = alpha g := by
  rw [b32_eq_map_groupsOfFive] at h
  obtain ⟨g, _, hg⟩ := List.mem_map.mp h
  exact ⟨g, hg.symm⟩

/-- Settles O51. -/
theorem b32AlphabetOnly : Obligations.B32AlphabetOnly := by
  unfold Obligations.B32AlphabetOnly
  refine ⟨alpha_eq_arithmetic, fun m c hc => ?_⟩
  obtain ⟨g, rfl⟩ := exists_alpha_of_mem_b32 hc
  exact ⟨⟨g, rfl⟩, alpha_ne_padChar g, alpha_excludes g⟩

theorem padChar_not_mem_b32 (m : List Byte) : padChar ∉ b32 m := by
  intro h
  obtain ⟨g, hg⟩ := exists_alpha_of_mem_b32 h
  exact alpha_ne_padChar g hg.symm

theorem stripPads_eq_self {text : List Byte} (h : padChar ∉ text) : stripPads text = text := by
  refine List.rdropWhile_eq_self_iff.mpr fun hne hpad => h ?_
  rw [← beq_iff_eq.mp hpad]
  exact List.getLast_mem hne

theorem stripPads_append_pads (text : List Byte) (k : Nat) :
    stripPads (text ++ List.replicate k padChar) = stripPads text := by
  rw [stripPads, List.reverse_append, List.reverse_replicate, List.dropWhile_append_of_pos, stripPads]
  intro c hc
  exact beq_iff_eq.mpr (List.eq_of_mem_replicate hc)

/-- The pads fill the text of a rest of `r` bytes up to eight characters (R109). -/
theorem rest_padded : ∀ r < 5, (8 * r + 4) / 5 + padCount r = 8 * ((r + 4) / 5) := by decide

/-- Settles O52: no character of a text is the pad. -/
theorem stripOfPaddedIsUnpadded : Obligations.StripOfPaddedIsUnpadded := by
  unfold Obligations.StripOfPaddedIsUnpadded
  refine fun m => ⟨?_, ?_⟩
  · rw [b32Padded, stripPads_append_pads, stripPads_eq_self (padChar_not_mem_b32 m)]
  · have hblocks : (m.length + 4) / 5 = m.length / 5 + (m.length % 5 + 4) / 5 := by omega
    rw [b32Padded, List.length_append, List.length_replicate, b32_length_by_blocks, Nat.add_assoc,
      rest_padded _ (Nat.mod_lt _ (by decide)), hblocks, Nat.mul_add]

/-! ### The commands (R105 to R108) -/

/-- Settles O15. -/
theorem b32InitStartsANewText : Obligations.B32InitStartsANewText := by
  unfold Obligations.B32InitStartsANewText
  exact ⟨by decide, fun s hs => exec_of_running .b32Init hs, rfl⟩

theorem encode_b32Byte (b : Byte) : encode (.b32Byte b) = 0x2100 + b.setWidth 16 := by
  apply BitVec.eq_of_toNat_eq
  rw [encode, assemble_toNat, BitVec.toNat_add, BitVec.toNat_setWidth]
  have hb := b.isLt
  change 256 * 33 + b.toNat = (8448 + b.toNat % 2 ^ 16) % 2 ^ 16
  omega

/-- Settles O16, by the counts of the byte step. -/
theorem b32ByteTakesOneByte : Obligations.B32ByteTakesOneByte := by
  unfold Obligations.B32ByteTakesOneByte
  refine ⟨encode_b32Byte, fun s b hs => exec_of_running (.b32Byte b) hs, fun a n b hn => ?_, fun a b => ?_,
    by decide⟩
  · rw [b32Absorb_chars_length]
    split <;> omega
  · exact BitVec.eq_of_toNat_eq (b32Absorb_nb_toNat a 2 b)

theorem padChar_not_mem_b32Flush (a : BitVec 4) (n : BitVec 3) : padChar ∉ b32Flush a n := by
  unfold b32Flush
  split
  · exact List.not_mem_nil
  · exact fun h => alpha_ne_padChar _ (List.mem_singleton.mp h).symm

/-- Settles O17: after the first B32.FINAL no bit is pending. -/
theorem b32FinalEndsTheText : Obligations.B32FinalEndsTheText := by
  unfold Obligations.B32FinalEndsTheText
  refine ⟨by decide, fun s hs => exec_of_running .b32Final hs, b32Flush_zero, fun a n hn => ?_,
    padChar_not_mem_b32Flush, by decide, fun s t hs h => ?_⟩
  · rw [b32Flush_length, if_neg hn]
  · rw [exec_of_running .b32Final hs] at h
    cases h
    have hagain : effect .b32Final (effect .b32Final s) = effect .b32Final s :=
      (congrArg (State.setPending · 0 0) (State.emitAll_nil (effect .b32Final s)) :)
    rw [exec_of_running .b32Final (s := effect .b32Final s) hs, hagain]

/-- Settles O18: the effect is that of the two commands, and two bytes add sixteen pending bits. -/
theorem b32CrcAppendsTheChecksum : Obligations.B32CrcAppendsTheChecksum := by
  unfold Obligations.B32CrcAppendsTheChecksum
  refine ⟨by decide, fun s hs =>
    ⟨effect .b32Crc s, exec_of_running .b32Crc hs, ?_, rfl, fun hpending => ⟨?_, ?_⟩⟩⟩
  · exact execAll_of_running hs (by simp)
  · rw [effect_out, List.length_append, emitted_b32Crc_length hpending]
  · change (b32Absorb _ _ _).nb.toNat = _
    rw [b32Absorb_nb_toNat, State.absorb_nb, b32Absorb_nb_toNat]
    omega

end Sys2Proof.Machine

/-! ## The key buffer's commands and SK.ENC (42_strkey R121 to R127) -/

namespace Sys2Proof

/-- An operand byte adds its value to the opcode's word (R60, R63). -/
theorem assemble_eq_add (opc imm : Byte) : assemble opc imm = assemble opc 0 + imm.setWidth 16 := by
  have hopc := opc.isLt
  have himm := imm.isLt
  have hzero : (0 : Byte).toNat = 0 := rfl
  apply BitVec.eq_of_toNat_eq
  rw [BitVec.toNat_add, BitVec.toNat_setWidth, assemble_toNat, assemble_toNat, hzero]
  omega

end Sys2Proof

namespace Sys2Proof.Machine

/-- Settles O19. -/
theorem keyClrEmptiesTheBuffer : Obligations.KeyClrEmptiesTheBuffer := by
  unfold Obligations.KeyClrEmptiesTheBuffer
  exact ⟨by decide, fun s hs => exec_of_running .keyClr hs, rfl⟩

/-! ### KEY.PUSH (R122) -/

/-- Only KEY.CLR leads away from an overfull buffer. -/
theorem effect_klen_of_overfull {i : Instr} {s : State} (hk : s.klen = 33) (hi : i ≠ .keyClr) :
    (effect i s).klen = 33 := by
  cases i with
  | keyClr => exact absurd rfl hi
  | keyPush b => exact congrArg State.klen (s.pushKey_of_full b (by rw [hk]; decide))
  | skEnc =>
    rw [effect_skEnc_of_other (by rw [hk]; decide)]
    exact hk
  | _ => exact hk

/-- Settles O20, by whether there is room for the byte. -/
theorem keyPushStoresAndCounts : Obligations.KeyPushStoresAndCounts := by
  unfold Obligations.KeyPushStoresAndCounts
  have hfull (s : State) (b : Byte) (hs : s.cause = 0) (hk : 32 ≤ s.klen.toNat) :
      exec (.keyPush b) s = .next { s with klen := 33 } :=
    (exec_of_running (.keyPush b) hs).trans (congrArg _ (s.pushKey_of_full b hk))
  refine ⟨assemble_eq_add 0x31, fun s b hs hk => ?_, hfull, fun s b hs hk => ?_, fun i s t hs hk hi h => ?_⟩
  · refine ⟨s.keybuf.write s.klen.toNat b, ?_, Memory.lookup_write_same _ _ _,
      fun j hj => Memory.lookup_write_other _ _ _ _ hj⟩
    exact (exec_of_running (.keyPush b) hs).trans (congrArg _ (s.pushKey_of_room b hk))
  · rw [hfull s b hs (by rw [hk]; decide), ← hk]
  · rw [exec_of_running i hs] at h
    cases h
    exact effect_klen_of_overfull hk hi

/-! ### SK.ENC (R124, R127) -/

theorem exec_skEnc_of_full {s : State} (hs : s.cause = 0) (hk : s.klen = fullKlen) :
    exec .skEnc s = .next s.encodeKey := by
  rw [exec_of_running .skEnc hs, effect_skEnc_of_full hk]

theorem exec_skEnc_of_other {s : State} (hs : s.cause = 0) (hk : s.klen ≠ fullKlen) :
    exec .skEnc s = .next (s.raise .invalidLength) := by
  rw [exec_of_running .skEnc hs, effect_skEnc_of_other hk]

/-- Settles O21: the encoding leaves the checksum in `CRC`, and `KLEN = 0` for the next SK.ENC. -/
theorem skEncEncodesTheKey : Obligations.SkEncEncodesTheKey := by
  unfold Obligations.SkEncEncodesTheKey
  refine ⟨by decide, fun s hs hk => exec_skEnc_of_other hs hk, fun s hs hk => ?_⟩
  have hzero : (0 : BitVec 6) ≠ fullKlen := by decide
  exact ⟨exec_skEnc_of_full hs hk, s.encodedAddress_rawKey_length, exec_of_running .crcRead (s := s.encodeKey) hs,
    exec_skEnc_of_other (s := s.encodeKey) hs hzero⟩

/-- Settles O36, by what SK.ENC can do. -/
theorem skEncIsAllOrNothing : Obligations.SkEncIsAllOrNothing := by
  unfold Obligations.SkEncIsAllOrNothing
  intro s t h
  rcases exec_skEnc_cases h with ⟨hc, rfl⟩ | ⟨hc, hk, rfl⟩ | ⟨_, hk, rfl⟩
  · exact .inr ⟨.inl hc, hc, rfl⟩
  · exact .inl ⟨hc, hk, hc, _, s.encodedAddress_rawKey_length, rfl⟩
  · exact .inr ⟨.inr hk, by simp [FaultCause.code], rfl⟩

end Sys2Proof.Machine

/-! ## The address (42_strkey R125)

The 33 payload bytes are 264 bits: 52 whole groups and four bits, which the checksum's first bit makes a group. -/

namespace Sys2Proof.Machine

theorem alpha_mem_alphabet : ∀ g : BitVec 5, alpha g ∈ alphabet := by decide

theorem encodedAddress_length {k : List Byte} (hk : k.length = 32) : (encodedAddress k).length = 56 := by
  rw [encodedAddress, b32_length, fullPayload_length, hk]

/-! ### The first two characters -/

/-- The version byte 0x90 is the group of `S` and three zero bits. -/
theorem groupsOfFive_versionedPayload (b : Byte) (m : List Byte) :
    groupsOfFive (messageBits (0x90 :: b :: m)) =
      18 :: symbolOf false false false (b.getLsbD 7) (b.getLsbD 6) :: groupsOfFive (lowBits b 6 ++ messageBits m) :=
  rfl

theorem alpha_symbolOf_topBits : ∀ b : Byte, alpha (symbolOf false false false (b.getLsbD 7) (b.getLsbD 6)) =
    0x41 + (b.extractLsb' 6 2).setWidth 8 := by decide

theorem encodedAddress_front (b : Byte) (k : List Byte) :
    (encodedAddress (b :: k))[0]? = some 0x53 ∧
    (encodedAddress (b :: k))[1]? = some (0x41 + (b.extractLsb' 6 2).setWidth 8) := by
  have hgroups : encodedAddress (b :: k) =
      (groupsOfFive (messageBits (0x90 :: b :: (k ++ checksum (b :: k))))).map alpha := b32_eq_map_groupsOfFive _
  rw [hgroups, groupsOfFive_versionedPayload, ← alpha_symbolOf_topBits]
  exact ⟨rfl, rfl⟩

/-- Settles O53. -/
theorem addressShape : Obligations.AddressShape := by
  unfold Obligations.AddressShape
  intro k hk
  refine ⟨encodedAddress_length hk, ?_, ?_, fun c hc => ?_⟩
  · obtain ⟨b, k, rfl⟩ := List.exists_cons_of_length_eq_add_one hk
    exact (encodedAddress_front b k).1
  · intro b hb
    obtain ⟨k, rfl⟩ := List.head?_eq_some_iff.mp hb
    exact (encodedAddress_front b k).2
  · obtain ⟨g, rfl⟩ := exists_alpha_of_mem_b32 hc
    exact alpha_mem_alphabet g

/-! ### Payload and checksum (90_conflicts C4) -/

theorem groupsOfFive_length (x : List Bool) : (groupsOfFive x).length = (x.length + 4) / 5 := by
  induction x using groupsOfFive.induct with
  | case1 | case2 | case3 | case4 | case5 => simp [groupsOfFive]
  | case6 a b c d e rest ih =>
    rw [groupsOfFive, List.length_cons, ih]
    simp only [List.length_cons]
    omega

/-- The characters of the payload `p` with last byte `u` that take no checksum bit. -/
def payloadText (p : List Byte) (u : Byte) : List Byte :=
  (groupsOfFive (messageBits p ++ (byteBits u).take 4)).map alpha

/-- The character of the payload's last four bits and the checksum's first bit. -/
def sharedChar (n : BitVec 4) (d : Bool) : Byte :=
  alpha (symbolOf (n.getLsbD 3) (n.getLsbD 2) (n.getLsbD 1) (n.getLsbD 0) d)

theorem sharedChar_lowNibble (u : Byte) (d : Bool) : sharedChar (u.extractLsb' 0 4) d =
    alpha (symbolOf (u.getLsbD 3) (u.getLsbD 2) (u.getLsbD 1) (u.getLsbD 0) d) := by
  simp [sharedChar]

/-- The characters of the checksum bytes `x`, `y` that take no payload bit. -/
def checksumText (x y : Byte) : List Byte := (groupsOfFive (lowBits x 7 ++ byteBits y)).map alpha

section
variable {p : List Byte} (hp : p.length = 32) (u x y : Byte)
include hp

theorem payloadBits_length : (messageBits p ++ (byteBits u).take 4).length = 260 := by
  rw [List.length_append, messageBits_length, hp]
  rfl

theorem payloadText_length : (payloadText p u).length = 52 := by
  rw [payloadText, List.length_map, groupsOfFive_length, payloadBits_length hp]

/-- The text of a full payload in its three parts. -/
theorem b32_fullPayload : b32 (p ++ [u] ++ [x, y]) =
    payloadText p u ++ sharedChar (u.extractLsb' 0 4) (x.getLsbD 7) :: checksumText x y := by
  have hbits : messageBits (p ++ [u] ++ [x, y]) =
      (messageBits p ++ (byteBits u).take 4) ++ (lowBits u 4 ++ x.getLsbD 7 :: (lowBits x 7 ++ byteBits y)) := by
    simp [messageBits_append, messageBits_cons, messageBits_nil, byteBits_eq_lowBits, lowBits]
  rw [b32_eq_map_groupsOfFive, hbits, groupsOfFive_append _ (by rw [payloadBits_length hp]), List.map_append,
    sharedChar_lowNibble]
  rfl

theorem take_b32_fullPayload : (b32 (p ++ [u] ++ [x, y])).take 52 = payloadText p u := by
  rw [b32_fullPayload hp, List.take_left' (payloadText_length hp u)]

theorem drop_b32_fullPayload : (b32 (p ++ [u] ++ [x, y])).drop 53 = checksumText x y := by
  rw [b32_fullPayload hp, List.append_cons,
    List.drop_left' (by rw [List.length_append, payloadText_length hp, List.length_singleton])]

theorem getElem?_b32_fullPayload :
    (b32 (p ++ [u] ++ [x, y]))[52]? = some (sharedChar (u.extractLsb' 0 4) (x.getLsbD 7)) := by
  have hlen := payloadText_length hp u
  rw [b32_fullPayload hp, List.getElem?_append_right hlen.le, hlen]
  rfl

end

theorem exists_eq_concat {p : List Byte} {n : Nat} (hp : p.length = n + 1) : ∃ q u, p = q ++ [u] ∧ q.length = n := by
  rcases List.eq_nil_or_concat' p with rfl | ⟨q, u, rfl⟩
  · cases hp
  · exact ⟨q, u, rfl, by simpa using hp⟩

/-- Settles O54: the text in its three parts, the first 52 characters long (`b32_fullPayload`). -/
theorem whichCharactersCarryTheChecksum : Obligations.WhichCharactersCarryTheChecksum := by
  unfold Obligations.WhichCharactersCarryTheChecksum
  intro p q x y x' y' hplen hqlen
  obtain ⟨p, u, rfl, hp⟩ := exists_eq_concat hplen
  obtain ⟨q, v, rfl, hq⟩ := exists_eq_concat hqlen
  refine ⟨?_, ?_, fun u' v' hu hv hbits hbit => ?_⟩
  · rw [take_b32_fullPayload hp, take_b32_fullPayload hp]
  · rw [drop_b32_fullPayload hp, drop_b32_fullPayload hq]
  · rw [List.getLast?_concat, Option.some_inj] at hu hv
    rw [getElem?_b32_fullPayload hp, getElem?_b32_fullPayload hq, hu, hv, hbits, hbit]

/-! ### The address determines the key -/

/-- Settles O55: the text determines the payload (R110 law 6), and the key's bytes stand in front of the checksum. -/
theorem addressIsInjective : Obligations.AddressIsInjective := by
  unfold Obligations.AddressIsInjective
  intro k k' hk hk' h
  have hpayload : 0x90 :: k ++ checksum k = 0x90 :: k' ++ checksum k' := b32IsInjective _ _ h
  have hkeys := List.append_inj_left hpayload (by rw [List.length_cons, List.length_cons, hk, hk'])
  exact List.tail_eq_of_cons_eq hkeys

end Sys2Proof.Machine

/-! ## Streaming the payload, and loading the key (42_strkey R124, R126) -/

namespace Sys2Proof.Machine

/-! ### Both units fed byte by byte -/

/-- `s` with `CRC = c`, and `r` taken into the Base32 text. -/
def State.streaming (s : State) (c : BitVec 16) (r : Absorbed) : State :=
  { s with crc := c, acc := r.acc, nb := r.nb, out := s.out ++ r.chars }

theorem State.streaming_absorb (s : State) (c : BitVec 16) (r : Absorbed) (b : Byte) :
    (s.streaming c r).absorb b = s.streaming c (r.feed b) := by
  simp [State.streaming, State.absorb, State.emitAll, State.setPending, Absorbed.feed]

/-- Both units take each byte. -/
theorem effects_bothBytes (m : List Byte) (s : State) (c : BitVec 16) (r : Absorbed) :
    effects (m.flatMap fun b => expand (.bothByte b)) (s.streaming c r) =
      s.streaming (crcFeed c m) (m.foldl Absorbed.feed r) := by
  induction m generalizing c r with
  | nil => rfl
  | cons b m ih =>
    have hbyte : effects (expand (.bothByte b)) (s.streaming c r) = s.streaming (crcStep c b) (r.feed b) :=
      s.streaming_absorb (crcStep c b) r b
    rw [List.flatMap_cons, effects_append, hbyte, ih, crcFeed_cons, List.foldl_cons]

/-- B32.CRC takes the register's two bytes into the text. -/
theorem effect_b32Crc_streaming (s : State) (c : BitVec 16) (r : Absorbed) :
    effect .b32Crc (s.streaming c r) = s.streaming c ((checksumBytes c).foldl Absorbed.feed r) := by
  have hbytes : effect .b32Crc (s.streaming c r) = ((s.streaming c r).absorb (lowByte c)).absorb (highByte c) := rfl
  rw [hbytes, State.streaming_absorb, State.streaming_absorb]
  rfl

theorem effect_b32Final_streaming (s : State) (c : BitVec 16) (r : Absorbed) :
    effect .b32Final (s.streaming c r) =
      { s with crc := c, acc := 0, nb := 0, out := s.out ++ (r.chars ++ b32Flush r.acc r.nb) } :=
  congrArg (fun o => { s with crc := c, acc := 0, nb := 0, out := o }) (List.append_assoc ..)

/-- The streaming program of R126 for the payload `m`. -/
theorem effects_streaming (m : List Byte) (s : State) :
    effects ([.crcInit, .b32Init] ++ m.flatMap (fun b => expand (.bothByte b)) ++ [.b32Crc, .b32Final]) s =
      { s with crc := crc16 m, acc := 0, nb := 0, out := s.out ++ b32 (m ++ checksumBytes (crc16 m)) } := by
  have hstart : effects [.crcInit, .b32Init] s = s.streaming crcInitial ⟨0, 0, []⟩ := by
    simp [State.streaming, effect, State.setCrc, State.setPending]
  rw [effects_append, effects_append, hstart, effects_bothBytes, effects_cons, effect_b32Crc_streaming, effects_cons,
    effect_b32Final_streaming, effects_nil, ← crc16, ← List.foldl_append]
  rfl

/-! ### SK.ENCODE: the key loaded, then SK.ENC -/

theorem execAll_append (is js : List Instr) (s : State) :
    execAll (is ++ js) s = andThen (execAll is s) (execAll js) := by
  induction is generalizing s with
  | nil => rfl
  | cons i is ih =>
    rw [List.cons_append, execAll, execAll]
    rcases exec i s with t | r | r
    · exact ih t
    · rfl
    · rfl

theorem execAll_singleton (i : Instr) (s : State) : execAll [i] s = exec i s := by
  rw [execAll]
  rcases exec i s with t | r | r <;> rfl

theorem State.afterLoad_klen_eq_full_iff (s : State) (m : List Byte) (mem : Memory) :
    (s.afterLoad m mem).klen = fullKlen ↔ m.length = 32 := by
  have hfull : fullKlen.toNat = 32 := rfl
  rw [← BitVec.toNat_inj, State.afterLoad_klen_toNat, hfull]
  omega

/-- A loaded 32-byte key is the raw key. -/
theorem State.rawKey_afterLoad (s : State) {k : List Byte} {mem : Memory} (hk : k.length = 32)
    (h : Memory.HoldsLoad s.keybuf k mem) : (s.afterLoad k mem).rawKey = k := by
  obtain ⟨hloaded, _⟩ := h
  refine List.ext_getElem ((State.rawKey_length _).trans hk.symm) fun j hj hjk => ?_
  have hlookup : (s.afterLoad k mem).keybuf.lookup j = some k[j] :=
    (hloaded j (hk ▸ hjk) hjk).trans (List.getElem?_eq_getElem hjk)
  simp [State.rawKey, State.memRead, hlookup]

/-- A running block loads the bytes and comes to SK.ENC. -/
theorem execAll_skEncode (k : List Byte) {s : State} (hs : s.cause = 0) :
    ∃ mem, execAll (expand (.skEncode k)) s = exec .skEnc (s.afterLoad k mem) ∧ Memory.HoldsLoad s.keybuf k mem := by
  obtain ⟨mem, heff, hmem⟩ := effects_keyLoad k s
  refine ⟨mem, ?_, hmem⟩
  have hload : execAll (expand (.keyLoad k)) s = .next (s.afterLoad k mem) :=
    (execAll_of_running hs (by simp [expand])).trans (congrArg _ heff)
  have hsplit : expand (.skEncode k) = expand (.keyLoad k) ++ [.skEnc] := rfl
  rw [hsplit, execAll_append, hload, andThen_next, execAll_singleton]

/-- The block `s` after SK.ENCODE of a 32-byte key. -/
theorem execAll_skEncode_of_key {k : List Byte} {s : State} (hs : s.cause = 0) (hk : k.length = 32) :
    ∃ t, execAll (expand (.skEncode k)) s = .next t ∧ t.out = s.out ++ encodedAddress k ∧ t.cause = 0 ∧
      t.taken = s.taken ∧ t.host = s.host ∧ t.crc = crc16 (0x90 :: k) ∧ t.acc = 0 ∧ t.nb = 0 ∧ t.klen = 0 := by
  obtain ⟨mem, hexec, hmem⟩ := execAll_skEncode k hs
  have hkey := s.rawKey_afterLoad hk hmem
  rw [exec_skEnc_of_full (s := s.afterLoad k mem) hs ((s.afterLoad_klen_eq_full_iff k mem).mpr hk)] at hexec
  refine ⟨_, hexec, ?_, hs, rfl, rfl, ?_, rfl, rfl, rfl⟩
  · rw [State.encodeKey_out, hkey]
    rfl
  · rw [State.encodeKey_crc, hkey]
    rfl

/-- SK.ENCODE of any other number of bytes raises the length fault and emits nothing (R152). -/
theorem execAll_skEncode_of_wrong_length {k : List Byte} {s : State} (hs : s.cause = 0) (hk : k.length ≠ 32) :
    ∃ t, execAll (expand (.skEncode k)) s = .next t ∧ t.out = s.out ∧ t.cause = 2 ∧ t.taken = s.taken ∧
      t.host = s.host := by
  obtain ⟨mem, hexec, _⟩ := execAll_skEncode k hs
  rw [exec_skEnc_of_other (s := s.afterLoad k mem) hs (mt (s.afterLoad_klen_eq_full_iff k mem).mp hk)] at hexec
  exact ⟨_, hexec, rfl, rfl, rfl, rfl⟩

/-- Settles O57: the streamed text and checksum are those of SK.ENC by definition. -/
theorem streamingGivesTheSameAddress : Obligations.StreamingGivesTheSameAddress := by
  unfold Obligations.StreamingGivesTheSameAddress
  intro k s hs hk
  refine ⟨?_, ?_⟩
  · rw [execAll_of_running hs (by simp [expand]), effects_streaming]
    rfl
  · obtain ⟨t, hexec, hout, hcause, _, _, hcrc, hacc, hnb, hklen⟩ := execAll_skEncode_of_key hs hk
    exact ⟨t, hexec, hcause, hcrc, hacc, hnb, hklen, hout⟩

end Sys2Proof.Machine

/-! ## The host front end (42_strkey R131 to R135) -/

namespace Sys2Proof.Machine

/-! ### Hex digits (R131, R132) -/

theorem hexValue_x : hexValue 'x' = none := by decide

theorem hexValue_X : hexValue 'X' = none := by decide

/-- Everything step 2 can answer: the bytes of the pairs of hex digits, or the decoding error. -/
theorem parseHex_cases (text : List Char) :
    (∃ k, parseHex text = .ok k ∧ text.length = 2 * k.length ∧ ∀ c ∈ text, hexValue c ≠ none) ∨
    parseHex text = .error .decodingError := by
  induction text using parseHex.induct with
  | case1 => exact .inl ⟨[], rfl, rfl, nofun⟩
  | case2 => exact .inr rfl
  | case3 h l rest a b bytes hrest hl hh ih =>
    rcases ih with ⟨k, hk, hlen, hdigits⟩ | herror
    · refine .inl ⟨BitVec.ofNat 8 (16 * a + b) :: k, by simp [parseHex, hh, hl, hk], ?_,
        by simpa [hh, hl] using hdigits⟩
      rw [List.length_cons, List.length_cons, List.length_cons, hlen, Nat.mul_succ]
    · rw [hrest] at herror
      cases herror
  | case4 h l rest hnot =>
    refine .inr ?_
    rw [parseHex]
    split
    next a b bytes hh hl hrest => exact (hnot a b bytes hh hl hrest).elim
    next => rfl

theorem length_of_parseHex {text : List Char} {k : List Byte} (h : parseHex text = .ok k) :
    text.length = 2 * k.length := by
  rcases parseHex_cases text with ⟨_, hk, hlen, _⟩ | herror
  · cases hk.symm.trans h
    exact hlen
  · cases herror.symm.trans h

theorem digits_of_parseHex {text : List Char} {k : List Byte} (h : parseHex text = .ok k) :
    ∀ c ∈ text, hexValue c ≠ none := by
  rcases parseHex_cases text with ⟨_, _, _, hdigits⟩ | herror
  · exact hdigits
  · cases herror.symm.trans h

/-- A text of hex digits has no `0x` to strip. -/
theorem strip0x_of_digits {text : List Char} (h : ∀ c ∈ text, hexValue c ≠ none) : strip0x text = text := by
  unfold strip0x
  split
  · exact absurd hexValue_x (h 'x' (by simp))
  · rfl

/-! ### The errors, hex before length (R133, R135) -/

section
variable {text : List Char} {k : List Byte}

theorem hostRawKey_of_hex (h : parseHex (strip0x text) = .ok k) :
    hostRawKey text = if k.length = 32 then .ok k else .error .invalidLengthError := by
  simp only [hostRawKey, h]

/-- Text that is not hex is a decoding error, whatever its length. -/
theorem hostRawKey_of_not_hex (h : ∀ k, parseHex (strip0x text) ≠ .ok k) : hostRawKey text = .error .decodingError := by
  rcases parseHex_cases (strip0x text) with ⟨k, hk, _⟩ | herror
  · exact absurd hk (h k)
  · simp only [hostRawKey, herror]

theorem hostRawKey_eq_ok_iff : hostRawKey text = .ok k ↔ parseHex (strip0x text) = .ok k ∧ k.length = 32 := by
  constructor
  · intro h
    rcases parseHex_cases (strip0x text) with ⟨k', hk, _⟩ | herror
    · rw [hostRawKey_of_hex hk] at h
      split at h
      next hlen =>
        cases h
        exact ⟨hk, hlen⟩
      next => cases h
    · simp [hostRawKey, herror] at h
  · rintro ⟨hk, hlen⟩
    rw [hostRawKey_of_hex hk, if_pos hlen]

theorem hostRawKey_of_wrong_length (h : parseHex (strip0x text) = .ok k) (hk : k.length ≠ 32) :
    hostRawKey text = .error .invalidLengthError := by
  rw [hostRawKey_of_hex h, if_neg hk]

/-- The decoding error comes from step 2 alone. -/
theorem parseHex_of_decodingError (h : hostRawKey text = .error .decodingError) :
    parseHex (strip0x text) = .error .decodingError := by
  rcases parseHex_cases (strip0x text) with ⟨k, hk, _⟩ | herror
  · rw [hostRawKey_of_hex hk] at h
    split at h <;> cases h
  · exact herror

theorem hostRawKey_of_not_digits (h : ∃ c ∈ strip0x text, hexValue c = none) :
    hostRawKey text = .error .decodingError := by
  obtain ⟨c, hc, hnone⟩ := h
  exact hostRawKey_of_not_hex fun k hk => digits_of_parseHex hk c hc hnone

/-! ### The words the host sends (R133, R134) -/

theorem hostEncode_of_error {e : HostError} (h : hostRawKey text = .error e) : hostEncode text = .error e := by
  simp only [hostEncode, h]

theorem hostEncode_of_key (h : hostRawKey text = .ok k) : hostEncode text = .ok (wordsOf (expand (.skEncode k))) := by
  simp only [hostEncode, h]

theorem hostPushAll_of_hex (h : parseHex (strip0x text) = .ok k) :
    hostPushAll text = .ok (wordsOf (expand (.skEncode k))) := by
  simp only [hostPushAll, h]

theorem hostPushAll_of_error {e : HostError} (h : parseHex (strip0x text) = .error e) :
    hostPushAll text = .error e := by
  simp only [hostPushAll, h]

end

theorem wordsOf_skEncode_length (k : List Byte) : (wordsOf (expand (.skEncode k))).length = k.length + 2 := by
  simp [wordsOf, expand]

/-- Settles O60, by what step 2 can answer. -/
theorem hostErrorsInOrder : Obligations.HostErrorsInOrder := by
  unfold Obligations.HostErrorsInOrder
  refine ⟨fun text hodd => ?_, fun text => hostRawKey_of_not_digits, fun text k => hostRawKey_of_wrong_length,
    hostRawKey_of_wrong_length (k := []) rfl (by decide), hostRawKey_of_wrong_length (k := []) rfl (by decide),
    fun h k hk => ?_, fun rest => ?_, fun text readsStatus s herror => ?_⟩
  · refine hostRawKey_of_not_hex fun k hk => ?_
    have := length_of_parseHex hk
    omega
  · have hstrip : strip0x h = h := strip0x_of_digits (digits_of_parseHex hk)
    rw [hostRawKey_of_hex (text := '0' :: 'x' :: h) hk, hostRawKey_of_hex (text := h) (hstrip.symm ▸ hk)]
  · have hstrip : strip0x ('0' :: 'X' :: rest) = '0' :: 'X' :: rest := by simp [strip0x]
    exact hostRawKey_of_not_digits ⟨'X', by simp [hstrip], hexValue_X⟩
  · rw [encodeChecking, encodePushing, hostEncode_of_error herror,
      hostPushAll_of_error (parseHex_of_decodingError herror)]
    exact ⟨rfl, rfl⟩

/-! ### The words at the command port (R134) -/

/-- A command leaves the host's later events alone and does not look at them. -/
theorem exec_setHost (i : Instr) (s : State) : ∃ t : State, ∀ es, exec i (s.setHost es) = .next (t.setHost es) := by
  obtain ⟨t, vs, hout, hexec⟩ := commandsReadNeitherOutputNorPorts i s
  exact ⟨{ t with out := s.out ++ vs, taken := s.taken, pastRuns := s.pastRuns },
    fun es => hexec s.out es s.taken s.pastRuns⟩

theorem run_of_step {s t : State} (n : Nat) (h : step s = .next t) :
    Host.Core.run core (n + 1) s = Host.Core.run core n t := by
  have hcore : core.step s = .next t := h
  simp only [Host.Core.run, hcore]

/-- The words of commands, at the port before the host's later events, run the commands one after the other. -/
theorem run_wordsOf (is : List Instr) (s : State) (later : List PortEvent) :
    Host.Core.run core (wordsOf is).length { s with host := wordsOf is ++ later } = execAll is (s.setHost later) := by
  induction is generalizing s with
  | nil => rfl
  | cons i is ih =>
    obtain ⟨t, ht⟩ := exec_setHost i s
    have hstep : step (s.setHost (wordsOf (i :: is) ++ later)) = .next (t.setHost (wordsOf is ++ later)) :=
      calc step (s.setHost (wordsOf (i :: is) ++ later))
          = takeWord (encode i) (s.setHost (wordsOf is ++ later)) := step_command rfl
        _ = exec i (s.setHost (wordsOf is ++ later)) := takeWord_of_command _ _ i (decode_encode i)
        _ = .next (t.setHost (wordsOf is ++ later)) := ht _
    rw [execAll, ht later]
    exact (run_of_step _ hstep).trans (ih t)

/-! ### The session (R133, R134; 60_exceptions R163) -/

/-- After its preparation the host's session is the commands of its words on a block that is ready. -/
theorem hostConverse_skEncode (readsStatus : Bool) (k : List Byte) {s : State} (h : s.taken ≤ s.out.length) :
    ∃ r : State, r.cause = 0 ∧ r.taken = r.out.length ∧ r.host = s.host ∧
      r.out = (if s.cause = 0 then s.out else []) ∧
      hostConverse readsStatus (wordsOf (expand (.skEncode k))) s =
        andThen (execAll (expand (.skEncode k)) r) fun t =>
          if t.faultOutput then hostRecover readsStatus t
          else andThen (receive 56 t) fun a => .next ⟨.ok a.1, none, a.2⟩ := by
  obtain ⟨r, hready, hcause, htaken, hhost, hout⟩ := preparation_ready s h
  refine ⟨r, hcause, htaken, hhost, hout, ?_⟩
  rw [hostConverse, hready, andThen_next, runEvents_wordsOf _ r fun i _ => decode_encode i]

theorem hostConverse_of_key (readsStatus : Bool) {k : List Byte} {s : State} (h : s.taken ≤ s.out.length)
    (hk : k.length = 32) :
    ∃ u : State, hostConverse readsStatus (wordsOf (expand (.skEncode k))) s =
        .next ⟨.ok (encodedAddress k), none, u⟩ ∧
      u.out = (if s.cause = 0 then s.out else []) ++ encodedAddress k ∧ u.taken = u.out.length ∧
      u.cause = 0 ∧ u.host = s.host := by
  obtain ⟨r, hr, hrtaken, hrhost, hrout, hconverse⟩ := hostConverse_skEncode readsStatus k h
  obtain ⟨t, ht, htout, htcause, httaken, hthost, _⟩ := execAll_skEncode_of_key hr hk
  have hlen : t.taken + 56 = t.out.length := by
    rw [htout, List.length_append, encodedAddress_length hk, httaken, hrtaken]
  have hnext : (t.out.drop t.taken).take 56 = encodedAddress k := by
    rw [htout, httaken, hrtaken, List.drop_left, List.take_of_length_le (encodedAddress_length hk).le]
  have hfault : t.faultOutput = false := by simp [State.faultOutput, State.halted, htcause]
  refine ⟨{ t with taken := t.taken + 56 }, ?_, hrout ▸ htout, hlen, htcause, hthost.trans hrhost⟩
  rw [hconverse, ht, andThen_next, hfault, if_neg Bool.false_ne_true, receive_next 56 t hlen.le, andThen_next, hnext]

/-- The recovery from a length fault: the status byte if the host wants it, and the block reset. -/
theorem hostRecover_of_invalidLength (readsStatus : Bool) {t : State} (hcause : t.cause = 2)
    (htaken : t.taken = t.out.length) :
    ∃ v : State, hostRecover readsStatus t =
      .next ⟨.error .invalidLengthError, if readsStatus then some 0x02 else none, v.resetBlock t.host⟩ := by
  cases readsStatus with
  | false => exact ⟨t, rfl⟩
  | true =>
    have hstatus : runEvents [.command (encode .statRead)] t = .next (t.emitAll [0x02]) := by
      rw [runEvents_command, takeWord_of_command _ _ _ (decode_encode _), exec_statRead, effect, State.statusByte,
        hcause]
      rfl
    have hbyte : receive 1 (t.emitAll [0x02]) = .next ([0x02], { t.emitAll [0x02] with taken := t.taken + 1 }) := by
      rw [receive_next 1 (t.emitAll [0x02]) (by simp [htaken])]
      simp [htaken]
    refine ⟨{ t.emitAll [0x02] with taken := t.taken + 1 }, ?_⟩
    rw [hostRecover, if_pos rfl, hstatus, andThen_next, hbyte, andThen_next, runEvents_reset]
    rfl

/-- Settles O58. -/
theorem hostEncodeEmitsTheAddress : Obligations.HostEncodeEmitsTheAddress := by
  unfold Obligations.HostEncodeEmitsTheAddress
  refine ⟨fun text k s later hkey hs => ?_, fun text k readsStatus s hkey htaken => ?_⟩
  · obtain ⟨_, hk⟩ := hostRawKey_eq_ok_iff.mp hkey
    obtain ⟨t, ht, hout, hcause, _, hhost, _⟩ := execAll_skEncode_of_key (s := s.setHost later) hs hk
    exact ⟨_, t, hostEncode_of_key hkey, by rw [wordsOf_skEncode_length, hk], (run_wordsOf _ s later).trans ht, hout,
      hcause, hhost⟩
  · obtain ⟨hhex, hk⟩ := hostRawKey_eq_ok_iff.mp hkey
    obtain ⟨u, hconverse, hout, hutaken, hcause, hhost⟩ := hostConverse_of_key readsStatus htaken hk
    refine ⟨u, ?_, ?_, hout, hutaken, hcause, hhost⟩
    · rw [encodeChecking, hostEncode_of_key hkey]
      exact hconverse
    · rw [encodePushing, hostPushAll_of_hex hhex]
      exact hconverse

/-- Settles O59: the words end in the length fault (`execAll_skEncode_of_wrong_length`); the host recovers from it. -/
theorem pushingAWrongLengthFaults : Obligations.PushingAWrongLengthFaults := by
  unfold Obligations.PushingAWrongLengthFaults
  refine ⟨fun text k s later hhex hk hs => ?_, fun text k readsStatus s hhex hk htaken => ?_⟩
  · obtain ⟨t, ht, hout, hcause, _, hhost⟩ := execAll_skEncode_of_wrong_length (s := s.setHost later) hs hk
    exact ⟨hostEncode_of_error (hostRawKey_of_wrong_length hhex hk), _, t, hostPushAll_of_hex hhex,
      (run_wordsOf _ s later).trans ht, hout, hcause, hhost⟩
  · obtain ⟨r, hr, hrtaken, hrhost, _, hconverse⟩ := hostConverse_skEncode readsStatus k htaken
    obtain ⟨t, ht, htout, htcause, httaken, hthost⟩ := execAll_skEncode_of_wrong_length hr hk
    obtain ⟨v, hrecover⟩ := hostRecover_of_invalidLength readsStatus htcause
      (by rw [httaken, hrtaken, htout])
    have hfault : t.faultOutput = true := by simp [State.faultOutput, State.halted, htcause]
    refine ⟨?_, v.resetBlock t.host, ?_, rfl, rfl, rfl, rfl, rfl, rfl, hthost.trans hrhost⟩
    · rw [encodeChecking, hostEncode_of_error (hostRawKey_of_wrong_length hhex hk)]
      rfl
    · rw [encodePushing, hostPushAll_of_hex hhex, hostSession, hconverse, ht, andThen_next, hfault, if_pos rfl,
        hrecover]

end Sys2Proof.Machine

/-! ## The system command STAT.READ (43_system) -/

namespace Sys2Proof

/-- A non-zero operand field makes the word of a command without operand illegal (R61, R64). -/
theorem decode_assemble_of_reserved {opc imm : Byte} (hopc : opc ∈ plainOpcodes) (himm : imm ≠ 0) :
    ∃ why, decode (assemble opc imm) = .illegal why := by
  obtain ⟨_, _, hd⟩ := (decode_reserved_iff (assemble opc imm)).mpr
    ⟨(opcField_assemble opc imm).symm ▸ hopc, (immField_assemble opc imm).symm ▸ himm⟩
  exact ⟨_, hd⟩

end Sys2Proof

namespace Sys2Proof.Machine

/-- In a running block the status byte is zero (R29, R140). -/
theorem statusByte_of_running {s : State} (hs : s.cause = 0) : s.statusByte = 0x00 := by
  rw [State.statusByte, hs]
  rfl

/-- Settles O22: STAT.READ has no halted test (`exec_statRead`), so one equation covers the running and the halted
block. -/
theorem statReadEmitsTheStatus : Obligations.StatReadEmitsTheStatus := by
  unfold Obligations.StatReadEmitsTheStatus
  refine ⟨by decide, exec_statRead, fun s hs => ?_, fun imm himm => decode_assemble_of_reserved (by decide) himm⟩
  rw [exec_statRead, effect, statusByte_of_running hs]
  rfl

end Sys2Proof.Machine

/-! ## Faults and the halted block (60_exceptions R150 to R159) -/

namespace Sys2Proof

theorem decode_eq_command_iff {w : Word} {i : Instr} : decode w = .command i ↔ w = encode i :=
  ⟨eq_encode_of_decode, fun h => h ▸ decode_encode i⟩

end Sys2Proof

namespace Sys2Proof.Machine

/-! ### The two faults (R151, R152) -/

/-- Settles O23. -/
theorem illegalWordFaults : Obligations.IllegalWordFaults := by
  unfold Obligations.IllegalWordFaults
  exact fun _ _ _ hs hd => takeWord_of_illegal_running hd hs

/-- Settles O24. -/
theorem skEncOnWrongLengthFaults : Obligations.SkEncOnWrongLengthFaults := by
  unfold Obligations.SkEncOnWrongLengthFaults
  exact fun _ => exec_skEnc_of_other

/-! ### `CAUSE` after a command, a word, a step (R150) -/

/-- The one fault a command raises is SK.ENC's, of code 2. -/
theorem effect_cause_eq_ite (i : Instr) (s : State) :
    (effect i s).cause = if i = .skEnc ∧ s.klen ≠ 32 then 2 else s.cause := by
  by_cases hi : i = .skEnc
  · subst hi
    by_cases hk : s.klen = 32
    · rw [effect_skEnc_of_full hk, if_neg (fun h => h.2 hk), State.encodeKey_cause]
    · rw [effect_skEnc_of_other hk, if_pos ⟨rfl, hk⟩, State.raise_cause, FaultCause.code]
  · rw [effect_cause s hi, if_neg (fun h => hi h.1)]

/-- Everything a word can do to a running block. -/
theorem takeWord_running_cases {s t : State} {w : Word} (hs : s.cause = 0) (h : takeWord w s = .next t) :
    (∃ i, decode w = .command i ∧ t = effect i s) ∨ (∃ why, decode w = .illegal why) ∧ t = { s with cause := 1 } := by
  rcases hd : decode w with i | why
  · rw [takeWord_of_command s w i hd, exec_of_running i hs] at h
    cases h
    exact .inl ⟨i, rfl, rfl⟩
  · rw [takeWord_of_illegal_running hd hs] at h
    cases h
    exact .inr ⟨⟨why, rfl⟩, rfl⟩

/-- No word changes `CAUSE` in a halted block (R155): the most one does is to emit a byte. -/
theorem takeWord_cause_of_halted {s t : State} {w : Word} (hs : s.cause ≠ 0) (h : takeWord w s = .next t) :
    t.cause = s.cause := by
  rw [takeWord_of_halted hs] at h
  split at h <;> cases h <;> rfl

/-- Everything a word can do to `CAUSE`. -/
theorem takeWord_cause_cases {s t : State} {w : Word} (h : takeWord w s = .next t) :
    t.cause = s.cause ∨ s.cause = 0 ∧ (t.cause = 1 ∨ t.cause = 2) := by
  by_cases hs : s.cause = 0
  · rcases takeWord_running_cases hs h with ⟨i, _, rfl⟩ | ⟨_, rfl⟩
    · rw [effect_cause_eq_ite]
      split
      · exact .inr ⟨hs, .inr rfl⟩
      · exact .inl rfl
    · exact .inr ⟨hs, .inl rfl⟩
  · exact .inl (takeWord_cause_of_halted hs h)

/-- Everything a step can do to `CAUSE`: a reset clears it, a word may set it in a running block. -/
theorem step_cause_cases {s t : State} (h : step s = .next t) :
    s.host.head? = some .reset ∧ t.cause = 0 ∨ t.cause = s.cause ∨ s.cause = 0 ∧ (t.cause = 1 ∨ t.cause = 2) := by
  rcases hh : s.host with _ | ⟨w | _ | _, later⟩
  · rw [step_waiting hh] at h
    cases h
    exact .inr (.inl rfl)
  · rw [step_command hh] at h
    exact .inr (takeWord_cause_cases (s := s.setHost later) h)
  · rw [step_reset hh] at h
    cases h
    exact .inl ⟨rfl, rfl⟩
  · rw [step_takeByte hh] at h
    cases h
    exact .inr (.inl rfl)

/-- Settles O27: what commands, words and steps can do to `CAUSE`. -/
theorem faultsHaveTheirCausesOnly : Obligations.FaultsHaveTheirCausesOnly := by
  unfold Obligations.FaultsHaveTheirCausesOnly
  refine ⟨fun i s t hs h => ?_, fun w s t hs h => ?_, fun s t hs h => ?_⟩
  · rw [exec_of_running i hs] at h
    cases h
    rw [effect_cause_eq_ite, hs]
    split_ifs with hfault
    · exact ⟨iff_of_true (by decide) hfault, fun _ => rfl⟩
    · exact ⟨iff_of_false (not_not.mpr rfl) hfault, fun hne => absurd rfl hne⟩
  · rcases takeWord_running_cases hs h with ⟨i, hd, rfl⟩ | ⟨⟨why, hd⟩, rfl⟩
    · rw [effect_cause_eq_ite, hs, hd, Decoded.command.injEq]
      split_ifs with hfault
      · exact ⟨iff_of_false (by decide) nofun, iff_of_true rfl hfault⟩
      · exact ⟨iff_of_false (by decide) nofun, iff_of_false (by decide) hfault⟩
    · simp [hd]
  · rcases step_cause_cases h with ⟨_, ht⟩ | ht | ⟨_, ht | ht⟩
    · simp [ht]
    · exact ht ▸ hs
    · simp [ht]
    · simp [ht]

/-! ### The halted block (R154, R155) -/

/-- Settles O25: 0x4000 is the word of STAT.READ and of no other command. -/
theorem haltedBlockDropsEveryOtherWord : Obligations.HaltedBlockDropsEveryOtherWord := by
  unfold Obligations.HaltedBlockDropsEveryOtherWord
  refine ⟨fun s i => exec_of_halted, fun s w hs => ?_⟩
  have hstat : decode w = .command .statRead ↔ w = 0x4000 := decode_eq_command_iff
  rw [takeWord_of_halted hs]
  exact ⟨fun hw => if_pos (hstat.mpr hw), fun hw => if_neg (mt hstat.mp hw)⟩

/-- Settles O26. -/
theorem onlyResetChangesTheCauseOfAHaltedBlock : Obligations.OnlyResetChangesTheCauseOfAHaltedBlock := by
  unfold Obligations.OnlyResetChangesTheCauseOfAHaltedBlock
  refine ⟨fun s t w => takeWord_cause_of_halted, fun s t hs h hreset => ?_⟩
  rcases step_cause_cases h with ⟨hhead, _⟩ | ht | ⟨hrun, _⟩
  · exact absurd hhead hreset
  · exact ht
  · exact absurd hrun hs

end Sys2Proof.Machine

/-! ## The reset input, and a message through the Base32 unit (70_reset_and_hazards R170, R172, R175) -/

namespace Sys2Proof.Machine

/-- Settles O8: the step is `State.resetBlock`, which looks at the state before for the ended run's `OUT` alone. -/
theorem resetInputGivesTheResetState : Obligations.ResetInputGivesTheResetState := by
  unfold Obligations.ResetInputGivesTheResetState
  intro s later hh
  exact ⟨s.resetBlock later, step_reset hh, rfl, rfl, rfl, rfl, rfl, rfl, rfl, rfl, Memory.lookup_nil, rfl, rfl, rfl⟩

/-- B32.BYTE of each byte of `m` is the loop of R104, whatever is already pending; `CRC` stays. -/
theorem effects_b32Bytes (m : List Byte) (s : State) (c : BitVec 16) (r : Absorbed) :
    effects (m.map Instr.b32Byte) (s.streaming c r) = s.streaming c (m.foldl Absorbed.feed r) := by
  induction m generalizing r with
  | nil => rfl
  | cons b m ih =>
    have hbyte : effect (.b32Byte b) (s.streaming c r) = s.streaming c (r.feed b) := s.streaming_absorb c r b
    rw [List.map_cons, effects_cons, hbyte, ih, List.foldl_cons]

/-- B32.INIT begins the loop with no pending bit and no character. -/
theorem effect_b32Init_eq_streaming (s : State) : effect .b32Init s = s.streaming s.crc ⟨0, 0, []⟩ := by
  simp [State.streaming, effect, State.setPending]

theorem effects_b32Msg (m : List Byte) (s : State) :
    effects (expand (.b32Msg m)) s = { s with acc := 0, nb := 0, out := s.out ++ b32 m } := by
  rw [expand, effects_cons, effect_b32Init_eq_streaming, effects_append, effects_b32Bytes, effects_cons,
    effect_b32Final_streaming, effects_nil]
  rfl

/-- Settles O47: none of the commands halts a running block, so the run is their effects (`effects_b32Msg`). -/
theorem b32MessageEmitsItsText : Obligations.B32MessageEmitsItsText := by
  unfold Obligations.B32MessageEmitsItsText
  intro m s hs
  rw [execAll_of_running hs (by simp [expand]), effects_b32Msg]

end Sys2Proof.Machine

/-! ## Words of the printed decode table (95_test_vectors section 4.3) -/

namespace Sys2Proof

/-- Settles O4: the eleven legal words are the encodings of their commands; 0x1001 has the opcode of a command without
operand and a nonzero `IMM8`, and 0x0011 has an opcode of no command. -/
theorem printedWordsDecodeAsPrinted : Obligations.PrintedWordsDecodeAsPrinted := by
  unfold Obligations.PrintedWordsDecodeAsPrinted
  have hreserved : decode 0x1001 = .illegal (.reservedOperand 0x10 0x01) :=
    (decode_of_plainCommand (i := .crcInit) rfl rfl).trans (if_neg (by decide))
  have hunassigned : decode 0x0011 = .illegal (.unassignedOpcode 0x00) := decode_of_no_command rfl rfl
  exact ⟨decode_encode .crcInit, decode_encode (.crcByte 0xFF), decode_encode .crcRead, decode_encode .b32Init,
    decode_encode (.b32Byte 0x3D), decode_encode .b32Final, decode_encode .b32Crc, decode_encode .keyClr,
    decode_encode (.keyPush 0x90), decode_encode .skEnc, decode_encode .statRead, hreserved, hunassigned⟩

end Sys2Proof
